-- ==== Sys2Proof/Word.lean ====
section
/-! DEFINITION. The plain data types that every other file is written in: the 32-bit instruction word and
the byte of 30_encoding.md rules R90 and R100, text, and the name a DEC declares (rule R85). -/

namespace Sys2Proof

/-- One binary instruction word, `WORD_BITS` = 32 bits (R90). -/
abbrev Word := BitVec 32

/-- One byte of a serialised program image (R100). The machine itself has no bytes (R55). -/
abbrev Byte := BitVec 8

/-- The operand field of a word, `OPERAND_BITS` = 24 bits (R90). -/
abbrev Field := BitVec 24

/-- A text line or a token: a sequence of characters (R81). -/
abbrev Text := List Char

/-- The name a DEC declares: "an opaque type with decidable equality" (R89). A program that came in as text carries
the token's characters (R85), one that came in as words carries symbol numbers (R93); no rule of the machine looks
inside either. DESIGN CHOICE (log entry 5). -/
inductive Name where
  /-- the character string of a name token, compared exactly (R85) -/
  | text (chars : Text)
  /-- the symbol number of a binary DEC word (R93) -/
  | symbol (number : Nat)
  deriving DecidableEq, Repr

end Sys2Proof
end

