-- ==== Sys2Proof/Syntax.lean ====
section
/-! DEFINITION. The typed instruction of 30_encoding.md rule R89: the level at which every semantic rule is stated
(00_scope.md rule R7). Operands are unbounded integers, as the numeric token said, in or out of range. -/

namespace Sys2Proof

/-- The ten instruction variants (R89), one constructor for each row of spec/opcode_table.json. -/
inductive Instr where
  /-- `DEC`, DeclareVariable(name) (R120) -/
  | dec (name : Name)
  /-- `LDA`, LoadAccumulator(address) (R130) -/
  | lda (address : Int)
  /-- `LDI`, LoadImmediate(value) (R131) -/
  | ldi (value : Int)
  /-- `STR`, Store(address) (R132) -/
  | str (address : Int)
  /-- `XCH`, Exchange (R140) -/
  | xch
  /-- `ADD`, Add (R141) -/
  | add
  /-- `SUB`, Subtract (R142) -/
  | sub
  /-- `JMP`, Jump(address) (R150) -/
  | jmp (address : Int)
  /-- `JZS`, JumpIfZero(address) (R151) -/
  | jzs (address : Int)
  /-- `HLT`, Halt (R152) -/
  | hlt
  deriving DecidableEq, Repr

end Sys2Proof
end

