-- ==== Sys2Proof/WellFormed.lean ====
section
/-! DEFINITION. Which typed instructions have a binary word (30_encoding.md rules R90, R92, R93). Every typed
instruction has a meaning, in or out of these bounds: the check guards the encoder, never execution (rule R89). Which
instructions can be written as a text line is `Instr.printable` of Decode.lean. -/

namespace Sys2Proof

/-- The integers `[-2^23, 2^23 - 1]` of a 24-bit signed operand field (R92). -/
abbrev FitsOperand (v : Int) : Prop := -2 ^ 23 ≤ v ∧ v < 2 ^ 23

/-- The symbol numbers `[0, 2^24 - 1]` of a 24-bit unsigned field (R93). -/
abbrev FitsSymbol (n : Nat) : Prop := n < 2 ^ 24

/-- The instruction has a binary word: its integer operand fits 24 signed bits (R92), its name is a symbol number of
24 bits (R93). A name given as characters gets its number from the assembler first (`assemble`). -/
def Instr.wellFormed : Instr → Bool
  | .dec (.symbol n) => decide (FitsSymbol n)
  | .dec (.text _) => false
  | .lda a => decide (FitsOperand a)
  | .ldi v => decide (FitsOperand v)
  | .str a => decide (FitsOperand a)
  | .xch => true
  | .add => true
  | .sub => true
  | .jmp a => decide (FitsOperand a)
  | .jzs a => decide (FitsOperand a)
  | .hlt => true

end Sys2Proof
end

