-- ==== Sys2Proof/Decode.lean ====
section
/-! DEFINITION. 30_encoding.md: the opcode table as data, the decoder of binary words, text lines and image bytes,
and the encoder, assembler and printer that go the other way. Everything here is pure (rule R98). -/

namespace Sys2Proof

/-- Why the decoder, assembler or loader declines an input before anything runs (R12, R205, R207). None of these is a
machine fault and none can stand in ENGINE. -/
inductive LoadError where
  /-- the first token is no mnemonic, or the word is invalid (R82, R95, R205) -/
  | unknownOpcode
  /-- an operand token is missing, surplus or of the wrong shape (R84, R85, R86) -/
  | badOperand
  /-- more than `PROG_SIZE` instructions (R88) -/
  | programTooLong
  /-- the assembler has no word for the operand: an integer outside 24 signed bits (R92), or a symbol number of 2^24 or
  more, on which the spec is silent (DESIGN CHOICE, log entry 31) -/
  | operandTooWide
  /-- a byte stream that is no whole number of words; the model's own reason, DESIGN CHOICE (log entry 13) -/
  | truncatedImage
  deriving DecidableEq, Repr

/-- The ten operation codes, in the order of R91. -/
inductive Opcode where
  | dec | lda | ldi | str | xch | add | sub | jmp | jzs | hlt
  deriving DecidableEq, Repr

/-- How bits 23 to 0 are read (R90). -/
inductive Format where
  /-- format `N`: an unsigned symbol number -/
  | symbol
  /-- format `I`: a signed integer -/
  | integer
  /-- format `Z`: must be zero -/
  | zero
  deriving DecidableEq, Repr

/-- One row of the opcode table: mnemonic (R83) and opcode value and format (R91). -/
structure OpcodeRow where
  opcode : Opcode
  mnemonic : Text
  number : Nat
  format : Format
  deriving DecidableEq, Repr

/-- The opcode table as data (R83: "a model should keep the mnemonic table as data"). -/
def opcodeRows : List OpcodeRow :=
  [ ⟨.dec, ['D', 'E', 'C'], 1, .symbol⟩,
    ⟨.lda, ['L', 'D', 'A'], 2, .integer⟩,
    ⟨.ldi, ['L', 'D', 'I'], 3, .integer⟩,
    ⟨.str, ['S', 'T', 'R'], 4, .integer⟩,
    ⟨.xch, ['X', 'C', 'H'], 5, .zero⟩,
    ⟨.add, ['A', 'D', 'D'], 6, .zero⟩,
    ⟨.sub, ['S', 'U', 'B'], 7, .zero⟩,
    ⟨.jmp, ['J', 'M', 'P'], 8, .integer⟩,
    ⟨.jzs, ['J', 'Z', 'S'], 9, .integer⟩,
    ⟨.hlt, ['H', 'L', 'T'], 10, .zero⟩ ]

/-- The row of an opcode. -/
def rowOf (op : Opcode) : OpcodeRow :=
  (opcodeRows.find? fun r => r.opcode = op).getD ⟨op, [], 0, .zero⟩

/-! ### The binary word (R90 to R96, R99) -/

/-- `opcode = W[31:28]` (R90). -/
def opcodeField (w : Word) : Nat := (w.extractLsb' 28 4).toNat

/-- `zero = W[27:24]` (R90). -/
def zeroField (w : Word) : Nat := (w.extractLsb' 24 4).toNat

/-- `imm24 = sym24 = W[23:0]` (R90). -/
def operandField (w : Word) : Field := w.extractLsb' 0 24

/-- The signed reading `sext_24` of the operand field (R8, R92). -/
def signedOperand (f : Field) : Int := f.toInt

/-- The unsigned reading `zext_24` of the operand field (R8, R93). -/
def symbolOperand (f : Field) : Nat := f.toNat

/-- The typed instruction of an opcode and an operand field, or none where format `Z` has a nonzero operand
(R91, R94, R95). -/
def wordInstr (op : Opcode) (f : Field) : Option Instr :=
  match op with
  | .dec => some (.dec (.symbol (symbolOperand f)))
  | .lda => some (.lda (signedOperand f))
  | .ldi => some (.ldi (signedOperand f))
  | .str => some (.str (signedOperand f))
  | .xch => if f = 0 then some .xch else none
  | .add => if f = 0 then some .add else none
  | .sub => if f = 0 then some .sub else none
  | .jmp => some (.jmp (signedOperand f))
  | .jzs => some (.jzs (signedOperand f))
  | .hlt => if f = 0 then some .hlt else none

/-- The opcode with a given value, if any (R91: 0 and 11 to 15 select none). -/
def opcodeOfNumber (n : Nat) : Option Opcode :=
  (opcodeRows.find? fun r => r.number == n).map OpcodeRow.opcode

/-- The decoder of binary words, total on all 32-bit words (R95): an invalid word is refused with `UnknownOpcode`. -/
def decodeWord (w : Word) : Except LoadError Instr :=
  match opcodeOfNumber (opcodeField w) with
  | none => .error .unknownOpcode
  | some op =>
    if zeroField w = 0 then
      match wordInstr op (operandField w) with
      | some i => .ok i
      | none => .error .unknownOpcode
    else .error .unknownOpcode

/-- The mask of a row in a table-driven decoder (R99). -/
def OpcodeRow.mask (r : OpcodeRow) : Word :=
  match r.format with
  | .zero => 0xFFFFFFFF#32
  | .symbol => 0xFF000000#32
  | .integer => 0xFF000000#32

/-- The match value of a row, `opcode << 28` (R99). -/
def OpcodeRow.pattern (r : OpcodeRow) : Word := BitVec.ofNat 32 r.number <<< 28

/-- The row of the table selects the word (R99). -/
def OpcodeRow.selects (r : OpcodeRow) (w : Word) : Bool := w &&& r.mask == r.pattern

/-- A word from an opcode and an operand field: opcode in 31:28, zero in 27:24, operand in 23:0 (R90, R97). -/
def wordOf (op : Opcode) (f : Field) : Word :=
  BitVec.ofNat 4 (rowOf op).number ++ (0#4 ++ f)

/-- The two's complement 24-bit form of an integer operand (R97). -/
def integerField (v : Int) : Field := BitVec.ofInt 24 v

/-- The 24-bit form of a symbol number (R93). -/
def symbolField (n : Nat) : Field := BitVec.ofNat 24 n

/-- A format `I` word, where the operand fits (R92). -/
def integerWord (op : Opcode) (v : Int) : Option Word :=
  if -8388608 ≤ v ∧ v ≤ 8388607 then some (wordOf op (integerField v)) else none

/-- A format `N` word, where the symbol number fits (R93). The spec does not say what the assembler does with more than
2^24 distinct names; a number that does not fit has no word here (DESIGN CHOICE, log entry 31; safe: nothing runs). -/
def symbolWord (op : Opcode) (n : Nat) : Option Word :=
  if n < 16777216 then some (wordOf op (symbolField n)) else none

/-- The word of an instruction, where it has one (R91 to R94). A name given as characters has none until the
assembler has numbered it. -/
def encode (i : Instr) : Option Word :=
  match i with
  | .dec (.symbol n) => symbolWord .dec n
  | .dec (.text _) => none
  | .lda a => integerWord .lda a
  | .ldi v => integerWord .ldi v
  | .str a => integerWord .str a
  | .xch => some (wordOf .xch 0)
  | .add => some (wordOf .add 0)
  | .sub => some (wordOf .sub 0)
  | .jmp a => integerWord .jmp a
  | .jzs a => integerWord .jzs a
  | .hlt => some (wordOf .hlt 0)

/-! ### Image bytes (R100) -/

/-- A word as four bytes, least significant byte first (R100). -/
def wordBytes (w : Word) : List Byte :=
  [w.extractLsb' 0 8, w.extractLsb' 8 8, w.extractLsb' 16 8, w.extractLsb' 24 8]

/-- The word of four bytes, the first the least significant (R100). -/
def bytesWord (b0 b1 b2 b3 : Byte) : Word := b3 ++ (b2 ++ (b1 ++ b0))

/-- A program image: the words in slot order, four bytes each (R100). -/
def imageBytes (ws : List Word) : List Byte := ws.flatMap wordBytes

/-- The words of an image; a rest of one to three bytes is refused (log entry 13). -/
def imageWords : List Byte → Except LoadError (List Word)
  | b0 :: b1 :: b2 :: b3 :: rest => (imageWords rest).map (bytesWord b0 b1 b2 b3 :: ·)
  | [] => .ok []
  | _ => .error .truncatedImage

/-- Decode one instruction from a byte stream and give the bytes after it (R95, R100). -/
def decodeBytes : List Byte → Except LoadError (Instr × List Byte)
  | b0 :: b1 :: b2 :: b3 :: rest => (decodeWord (bytesWord b0 b1 b2 b3)).map (·, rest)
  | _ => .error .truncatedImage

/-- The instruction the decoder reads from an instruction whose bits are `w`, bit 0 the least significant bit of the
word, laid out as image bytes and given to the byte decoder. -/
def decodeTableWord (nbits w : Nat) : Option Instr :=
  if nbits ≤ 32 then
    match decodeBytes (wordBytes (BitVec.ofNat 32 (w % 2 ^ nbits))) with
    | .ok (i, _) => some i
    | .error _ => none
  else none

/-! ### The text line (R81 to R87) -/

/-- The characters that separate tokens: ASCII space, tab, line feed, vertical tab, form feed, carriage return
(R82, decision D27). -/
def isBlank (c : Char) : Bool := c.toNat == 32 || (9 ≤ c.toNat && c.toNat ≤ 13)

/-- An ASCII decimal digit (R84). -/
def isDigit (c : Char) : Bool := 48 ≤ c.toNat && c.toNat ≤ 57

/-- One or more decimal digits. -/
def isDigits (t : Text) : Bool := !t.isEmpty && t.all isDigit

/-- A numeric token: an optional `-`, then one or more ASCII digits (R84). -/
def isNumeric : Text → Bool
  | '-' :: ds => isDigits ds
  | ds => isDigits ds

/-- Tokens of a line: maximal runs of characters that are not separators (R82). `run` is the token being read,
last character first. -/
def tokensFrom (run : Text) : Text → List Text
  | [] => if run = [] then [] else [run.reverse]
  | c :: cs =>
    if isBlank c then
      if run = [] then tokensFrom [] cs else run.reverse :: tokensFrom [] cs
    else tokensFrom (c :: run) cs

/-- The tokens of a line (R82). -/
def tokens (line : Text) : List Text := tokensFrom [] line

/-- An ASCII letter in capitals; any other character as it is (R82). -/
def upperChar (c : Char) : Char :=
  if 97 ≤ c.toNat ∧ c.toNat ≤ 122 then Char.ofNat (c.toNat - 32) else c

/-- The opcode whose mnemonic the token spells, case-insensitively (R82, R83). -/
def opcodeOfToken (t : Text) : Option Opcode :=
  (opcodeRows.find? fun r => r.mnemonic == t.map upperChar).map OpcodeRow.opcode

/-- The value of a digit. -/
def digitValue (c : Char) : Nat := c.toNat - 48

/-- The value of a run of decimal digits, most significant first (R84). -/
def digitsValue (ds : Text) : Nat := ds.foldl (fun n c => 10 * n + digitValue c) 0

/-- The value of a numeric token (R84). -/
def tokenValue : Text → Int
  | '-' :: ds => -(digitsValue ds : Int)
  | ds => (digitsValue ds : Int)

/-- Exactly one numeric operand token (R84, R86). -/
def integerOperand (make : Int → Instr) : List Text → Except LoadError Instr
  | [t] => if isNumeric t then .ok (make (tokenValue t)) else .error .badOperand
  | _ => .error .badOperand

/-- Exactly one operand token that is not numeric (R85, R86). -/
def nameOperand (make : Name → Instr) : List Text → Except LoadError Instr
  | [t] => if isNumeric t then .error .badOperand else .ok (make (.text t))
  | _ => .error .badOperand

/-- No operand token (R86). -/
def noOperand (i : Instr) : List Text → Except LoadError Instr
  | [] => .ok i
  | _ => .error .badOperand

/-- The instruction of an opcode and its operand tokens (R83 to R86). -/
def lineInstr (op : Opcode) (operands : List Text) : Except LoadError Instr :=
  match op with
  | .dec => nameOperand .dec operands
  | .lda => integerOperand .lda operands
  | .ldi => integerOperand .ldi operands
  | .str => integerOperand .str operands
  | .xch => noOperand .xch operands
  | .add => noOperand .add operands
  | .sub => noOperand .sub operands
  | .jmp => integerOperand .jmp operands
  | .jzs => integerOperand .jzs operands
  | .hlt => noOperand .hlt operands

/-- `decode(line)` (R172): the instruction of a line, none for a blank line (R87), or the refusal. -/
def decodeLine (line : Text) : Except LoadError (Option Instr) :=
  match tokens line with
  | [] => .ok none
  | t :: operands =>
    match opcodeOfToken t with
    | none => .error .unknownOpcode
    | some op => (lineInstr op operands).map some

/-! ### Printing (R101) -/

/-- A token the decoder passes through as a name: not empty, no separator in it, and not numeric (R82, R85). -/
def isNameToken (t : Text) : Bool := !t.isEmpty && t.all (fun c => !isBlank c) && !isNumeric t

/-- The instruction can be written as a text line: a declared name is the characters of a name token (R85). A symbol
number has no characters in the word; they live in the assembler's listing (R93). -/
def Instr.printable : Instr → Bool
  | .dec (.text t) => isNameToken t
  | .dec (.symbol _) => false
  | .lda _ => true
  | .ldi _ => true
  | .str _ => true
  | .xch => true
  | .add => true
  | .sub => true
  | .jmp _ => true
  | .jzs _ => true
  | .hlt => true

/-- The decimal digit of a value below 10. -/
def digitChar (n : Nat) : Char := Char.ofNat (48 + n)

/-- The decimal digits of a natural number, most significant first; `fuel` above the number is enough. -/
def decimalDigits : Nat → Nat → Text
  | 0, _ => []
  | fuel + 1, n => if n < 10 then [digitChar n] else decimalDigits fuel (n / 10) ++ [digitChar (n % 10)]

/-- A natural number in decimal. -/
def natText (n : Nat) : Text := decimalDigits (n + 1) n

/-- An integer in decimal, with a leading `-` if negative (R101). -/
def intText (v : Int) : Text := if v < 0 then '-' :: natText v.natAbs else natText v.natAbs

/-- Mnemonic, one space, operand (R101). -/
def operandLine (op : Opcode) (operand : Text) : Text := (rowOf op).mnemonic ++ ' ' :: operand

/-- The printed line of an instruction (R101); none for a symbol number, whose characters are in the listing (R93). -/
def printLine (i : Instr) : Option Text :=
  match i with
  | .dec (.text t) => some (operandLine .dec t)
  | .dec (.symbol _) => none
  | .lda a => some (operandLine .lda (intText a))
  | .ldi v => some (operandLine .ldi (intText v))
  | .str a => some (operandLine .str (intText a))
  | .xch => some (rowOf .xch).mnemonic
  | .add => some (rowOf .add).mnemonic
  | .sub => some (rowOf .sub).mnemonic
  | .jmp a => some (operandLine .jmp (intText a))
  | .jzs a => some (operandLine .jzs (intText a))
  | .hlt => some (rowOf .hlt).mnemonic

/-! ### The assembler (R93, R97) -/

/-- The distinct names of a program in order of first occurrence, after those in `seen` (R93). -/
def listingFrom (seen : List Text) : List Instr → List Text
  | [] => seen
  | .dec (.text t) :: is => listingFrom (if t ∈ seen then seen else seen ++ [t]) is
  | _ :: is => listingFrom seen is

/-- The listing the assembler keeps beside the image: the name of symbol number n is entry n (R93). -/
def listing (is : List Instr) : List Text := listingFrom [] is

/-- A name's symbol number in a listing (R93). -/
def numberName (names : List Text) : Name → Name
  | .text t => .symbol (names.idxOf t)
  | .symbol n => .symbol n

/-- The characters of a symbol number, looked up in the listing (R93, R101). -/
def spellName (names : List Text) : Name → Name
  | .text t => .text t
  | .symbol n => match names[n]? with
    | some t => .text t
    | none => .symbol n

/-- An instruction with its name replaced; only DEC has one (R89). -/
def Instr.mapName (f : Name → Name) : Instr → Instr
  | .dec n => .dec (f n)
  | .lda a => .lda a
  | .ldi v => .ldi v
  | .str a => .str a
  | .xch => .xch
  | .add => .add
  | .sub => .sub
  | .jmp a => .jmp a
  | .jzs a => .jzs a
  | .hlt => .hlt

/-- The words of numbered instructions; an integer operand without a word is refused with `OperandTooWide` (R92, decision
D9). The same refusal of a symbol number without a word is the model's choice (DESIGN CHOICE, log entry 31). -/
def encodeAll : List Instr → Except LoadError (List Word)
  | [] => .ok []
  | i :: is =>
    match encode i with
    | none => .error .operandTooWide
    | some w => (encodeAll is).map (w :: ·)

/-- Assembly of a program of typed instructions into words and a listing (R93, R97). -/
def assemble (is : List Instr) : Except LoadError (List Word × List Text) :=
  (encodeAll (is.map (Instr.mapName (numberName (listing is))))).map (·, listing is)

/-- Decode the lines of a program in order, skipping blank lines and stopping at the first failure; each instruction
is kept with its raw line (R87, R88). -/
def decodeLines : List Text → Except LoadError (List (Instr × Text))
  | [] => .ok []
  | l :: ls =>
    match decodeLine l with
    | .error e => .error e
    | .ok none => decodeLines ls
    | .ok (some i) => (decodeLines ls).map ((i, l) :: ·)

/-- A word printed as a line, its symbol number spelled by the listing (R93, R101). -/
def disassemble (names : List Text) (w : Word) : Option Text :=
  match decodeWord w with
  | .ok i => printLine (i.mapName (spellName names))
  | .error _ => none

/-- The toolchain from text to words: decode the lines, then assemble (R97). -/
def assembleLines (lines : List Text) : Except LoadError (List Word × List Text) :=
  match decodeLines lines with
  | .error e => .error e
  | .ok p => assemble (p.map Prod.fst)

/-- Decode the words of an image in order, stopping at the first invalid word; each instruction is kept with its
word (R95). -/
def decodeWords : List Word → Except LoadError (List (Instr × Word))
  | [] => .ok []
  | w :: ws =>
    match decodeWord w with
    | .error e => .error e
    | .ok i => (decodeWords ws).map ((i, w) :: ·)

end Sys2Proof
end

