-- ==== Sys2Proof/Config.lean ====
section
/-! DEFINITION. The parameters of 00_scope.md rule R5 that a machine instance fixes, as one configuration record.
Their default values and the parameters derived from them are in Machine/Params.lean. The model has no free value:
the spec leaves no value open (93_implementation_defined.md). -/

namespace Sys2Proof

/-- The independent parameters of R5, fixed for a machine instance. `DATA_BASE`, `ADDR_LIMIT` and `PC_MAX` are
defined from these (the relations of R5 "are part of the rule"); `NUM_OPCODES`, `WORD_BITS` and `OPERAND_BITS` are
fixed by the types `Opcode`, `Word` and `Field`. -/
structure Config where
  /-- `PROG_SIZE`: slots of the program store and cells of the program range -/
  progSize : Nat
  /-- `DATA_SIZE`: cells of the data range -/
  dataSize : Nat
  /-- `VAL_MIN`: least value of ACC, DR and a numeric cell -/
  valMin : Int
  /-- `VAL_MAX`: greatest value of ACC, DR and a numeric cell -/
  valMax : Int
  /-- `PC_MIN`: least value of PC -/
  pcMin : Nat
  /-- `BUDGET`: executed instructions after which the engine halts -/
  budget : Nat
  deriving DecidableEq, Repr

end Sys2Proof
end

