-- ==== Sys2Proof/Machine/Params.lean ====
section
/-! DEFINITION. The default values of the parameters and the parameters derived from them (00_scope.md rule R5). -/

namespace Sys2Proof.Machine

/-- The source's values, which R5 makes the defaults. -/
def standardConfig : Config :=
  { progSize := 128, dataSize := 128, valMin := -32768, valMax := 32767, pcMin := 0, budget := 1000 }

/-- `DATA_BASE = PROG_SIZE`, the first data address (R5). -/
def dataBase (c : Config) : Nat := c.progSize

/-- `ADDR_LIMIT = PROG_SIZE + DATA_SIZE`, the first invalid address above the ranges (R5). -/
def addrLimit (c : Config) : Nat := c.progSize + c.dataSize

/-- `PC_MAX = PROG_SIZE - 1` (R5), on integers. -/
def pcMax (c : Config) : Int := (c.progSize : Int) - 1

/-- `v in [VAL_MIN, VAL_MAX]`: the legal values of ACC, DR and a numeric cell (R21, R22, R28). -/
abbrev ValueOk (c : Config) (v : Int) : Prop := c.valMin ≤ v ∧ v ≤ c.valMax

/-- `v in [PC_MIN, PC_MAX]`: the legal values of PC (R23). -/
abbrev PcOk (c : Config) (v : Int) : Prop := (c.pcMin : Int) ≤ v ∧ v ≤ pcMax c

/-- `0 <= a < ADDR_LIMIT`: an address of one of the cells (R51, R52). -/
abbrev AddressOk (c : Config) (a : Int) : Prop := 0 ≤ a ∧ a < (addrLimit c : Int)

end Sys2Proof.Machine
end

