-- ==== Sys2Proof/Machine/State.lean ====
section
/-! DEFINITION. The state of the machine (10_state.md), as plain data, the state after reset (rule R38), and the
reasons a step of the model can stop without a next state. -/

namespace Sys2Proof.Machine

/-- What a `Line` cell carries: "opaque payload" (R28). At the text level the raw line as written, at the binary
level the instruction word (decision D32). No rule looks inside. -/
inductive Payload where
  | line (chars : Text)
  | word (w : Word)
  deriving DecidableEq, Repr

/-- The content of one memory cell (R28). -/
inductive Cell where
  /-- `Num(v)`, a signed integer -/
  | num (v : Int)
  /-- `Line(t)`, the raw source line of one instruction -/
  | line (t : Payload)
  deriving DecidableEq, Repr

/-- The cells of MEM that differ from `Num(0)`, by rising address; an unlisted address reads as `Num(0)` (R38, R67).
The addressable unit of this hardware is the cell, not the byte (R55; log entry 6). -/
abbrev Memory := List (Nat × Cell)

/-- The kinds that can stand in `Faulted(K)` (R20, R31). `UnknownOpcode` never does (R31, R205). -/
inductive FaultKind where
  /-- DEC of a name already declared (R201) -/
  | duplicateVariable
  /-- DEC of a fresh name when no data slot remains (R202) -/
  | outOfDataMemory
  /-- LDA or STR of an address in neither range (R203) -/
  | invalidAddress
  /-- a failed range check of a setter (R204) -/
  | valueOutOfRange
  /-- fetch found no instruction (R206) -/
  | missingInstruction
  deriving DecidableEq, Repr

/-- Why a run halted (R31). -/
inductive HaltReason where
  /-- HLT executed -/
  | normal
  /-- CYCLES reached BUDGET -/
  | budget
  deriving DecidableEq, Repr

/-- `ENGINE`, the engine state (R31). `running` is the only state in which a cycle is performed. -/
inductive Engine where
  | running
  | halted (reason : HaltReason)
  | faulted (kind : FaultKind)
  deriving DecidableEq, Repr

/-- An event of the observer trace (R34). -/
inductive Event where
  /-- `Declared(name, addr)`, from a successful DEC -/
  | declared (name : Name) (addr : Nat)
  /-- `HaltSignal`, from HLT -/
  | haltSignal
  deriving DecidableEq, Repr

/-- The machine. The first nine fields are the state tuple of R20; `program` and `cfg` are fixed for a run and are
here because a step must be given them (log entries 2, 3); `trace` is output (R34, log entry 4). -/
structure State where
  /-- `ACC`, the accumulator (R21) -/
  acc : Int
  /-- `DR`, the data register (R22) -/
  dr : Int
  /-- `PC`, the program counter: the slot of the next instruction to fetch (R23) -/
  pc : Nat
  /-- `ZF`, the zero flag (R24) -/
  zf : Bool
  /-- `MEM` (R28) -/
  mem : Memory
  /-- `SYMTAB`: name and data address, in the order of allocation (R29) -/
  symtab : List (Name × Nat)
  /-- `NALLOC`, the number of successful allocations (R29) -/
  nalloc : Nat
  /-- `CYCLES`, the number of completed cycles (R30) -/
  cycles : Nat
  /-- `ENGINE` (R31) -/
  engine : Engine
  /-- `PROGRAM`, the program store; `PLEN` is its length (R32) -/
  program : List Instr
  /-- the parameters of R5 -/
  cfg : Config
  /-- the observer trace, oldest event first (R34) -/
  trace : List Event
  deriving DecidableEq, Repr

/-- The machine right after reset (R38), with the default parameters (R5). The program store is not a matter of
reset ("not changed by reset; set by `load`"): before any load it is empty (log entry 2). -/
def State.reset : State :=
  { acc := 0
    dr := 0
    pc := 0
    zf := false
    mem := []
    symtab := []
    nalloc := 0
    cycles := 0
    engine := .running
    program := []
    cfg := standardConfig
    trace := [] }

/-- Reasons a step stops with no next state: there is none. A `raise` of the spec is a state the machine is in,
`ENGINE = Faulted(K)` with everything else as R210's table says, so it is a next state (log entry 1, safe). -/
inductive Fault where
  deriving DecidableEq, Repr

/-- Reasons an instruction has no meaning in the model. -/
inductive Refusal where
  /-- raised by an arm of `exec` whose instruction has no meaning yet; every instruction has one, so nothing raises
  it; safe -/
  | notModelled (mnemonic : String)
  deriving DecidableEq, Repr

end Sys2Proof.Machine
end

