-- ==== Sys2Proof/Machine/Ops.lean ====
section
/-! DEFINITION. The primitives of 00_scope.md rule R9 as named operations: raising an error, the observer trace, the
checked register write (10_state.md rule R25), the three memory operations (20_memory.md rules R52 to R54), fetch and
the end of a cycle (45_execution_cycle.md rules R161, R163 to R165). -/

namespace Sys2Proof.Machine

/-! ### Errors and events -/

/-- `raise K`: `ENGINE <- Faulted(K)`; what was written before it stays (R9, R210). -/
def raise (k : FaultKind) (s : State) : State := { s with engine := .faulted k }

/-- `emit e`: append an event to the observer trace (R9, R34). -/
def emit (e : Event) (s : State) : State := { s with trace := s.trace ++ [e] }

/-! ### Registers (R25) -/

/-- The four registers, in the order `x[0]` to `x[3]` of R9. -/
inductive Reg where
  | acc | dr | pc | zf
  deriving DecidableEq, Repr

/-- A register together with a value for it: an integer for ACC, DR and PC, a boolean for ZF (R20). -/
inductive RegValue where
  | acc (v : Int)
  | dr (v : Int)
  | pc (v : Int)
  | zf (b : Bool)
  deriving DecidableEq, Repr

/-- The register a value is meant for. -/
def RegValue.reg : RegValue → Reg
  | .acc _ => .acc
  | .dr _ => .dr
  | .pc _ => .pc
  | .zf _ => .zf

/-- `x[n]`, the indexed register file (R9). -/
def regOfIndex : Nat → Option Reg
  | 0 => some .acc
  | 1 => some .dr
  | 2 => some .pc
  | 3 => some .zf
  | _ => none

/-- The register file's "read value" (R25). -/
def regRead (r : Reg) (s : State) : RegValue :=
  match r with
  | .acc => .acc s.acc
  | .dr => .dr s.dr
  | .pc => .pc (s.pc : Int)
  | .zf => .zf s.zf

/-- The legal values of each register (R25): ACC and DR in `[VAL_MIN, VAL_MAX]`, PC in `[PC_MIN, PC_MAX]`, any
boolean for ZF. -/
def regLegal (c : Config) : RegValue → Bool
  | .acc v => decide (ValueOk c v)
  | .dr v => decide (ValueOk c v)
  | .pc v => decide (PcOk c v)
  | .zf _ => true

/-- `r <- v`, the unchecked assignment (R9). -/
def regPut (r : RegValue) (s : State) : State :=
  match r with
  | .acc v => { s with acc := v }
  | .dr v => { s with dr := v }
  | .pc v => { s with pc := v.toNat }
  | .zf b => { s with zf := b }

/-- `RegSet(r, v)`: the checked register write (R25). A value out of the register's range raises `ValueOutOfRange`
and the register keeps its old value. -/
def regSet (r : RegValue) (s : State) : State :=
  if regLegal s.cfg r then regPut r s else raise .valueOutOfRange s

/-- The register file's "reset to zero/false" (R25). -/
def regReset (r : Reg) (s : State) : State :=
  match r with
  | .acc => { s with acc := 0 }
  | .dr => { s with dr := 0 }
  | .pc => { s with pc := 0 }
  | .zf => { s with zf := false }

/-! ### Cells (R28, R51 to R53) -/

/-- What an unlisted address reads as: the reset content `Num(0)` (R38, R67). -/
def blankCell : Cell := .num 0

/-- The cell at an address. -/
def Memory.read : Memory → Nat → Cell
  | [], _ => blankCell
  | (b, d) :: m, a => if a = b then d else Memory.read m a

/-- Replace the cell at an address, keeping the canonical form: writing the blank cell removes the entry. -/
def Memory.write : Memory → Nat → Cell → Memory
  | [], a, c => if c = blankCell then [] else [(a, c)]
  | (b, d) :: m, a, c =>
    if a < b then
      if c = blankCell then (b, d) :: m else (a, c) :: (b, d) :: m
    else if a = b then
      if c = blankCell then m else (a, c) :: m
    else (b, d) :: Memory.write m a c

/-- The canonical form: addresses strictly rising, no entry equal to the blank cell. -/
abbrev Memory.wf (m : Memory) : Prop :=
  (m.map Prod.fst).Pairwise (· < ·) ∧ ∀ e ∈ m, e.2 ≠ blankCell

/-- The class of an address, by the number alone (R51). -/
inductive AddressClass where
  | program
  | data
  | invalid
  deriving DecidableEq, Repr

/-- Classification of an address (R51). -/
def classify (c : Config) (a : Int) : AddressClass :=
  if 0 ≤ a ∧ a < (c.progSize : Int) then .program
  else if (dataBase c : Int) ≤ a ∧ a < (addrLimit c : Int) then .data
  else .invalid

/-- `MEM[a] <- c` for an address in range. -/
def cellPut (a : Nat) (c : Cell) (s : State) : State := { s with mem := s.mem.write a c }

/-- `MemRead(a, 1)` (R52): the cell, or `InvalidAddress`. It changes no state. -/
def memRead (a : Int) (s : State) : Except FaultKind Cell :=
  if AddressOk s.cfg a then .ok (s.mem.read a.toNat) else .error .invalidAddress

/-- `MemWrite(a, 1, v)` (R53): the value check first, then the address check (decision D24), then the cell. -/
def memWrite (a : Int) (v : Int) (s : State) : State :=
  if ValueOk s.cfg v then
    if AddressOk s.cfg a then cellPut a.toNat (.num v) s else raise .invalidAddress s
  else raise .valueOutOfRange s

/-! ### The symbol table (R29, R54) -/

/-- The names declared so far, `dom(SYMTAB)`. -/
def declaredNames (s : State) : List Name := s.symtab.map Prod.fst

/-- `SYMTAB[name]` (R29). -/
def symbolAddress (s : State) (n : Name) : Option Nat :=
  (s.symtab.find? fun e => e.1 = n).map Prod.snd

/-- `SYMTAB[name] <- a; NALLOC <- NALLOC + 1` (R29, R54). -/
def symbolPut (n : Name) (a : Nat) (s : State) : State :=
  { s with symtab := s.symtab ++ [(n, a)], nalloc := s.nalloc + 1 }

/-- `Allocate(name)` (R54): the duplicate check first (decision D24), then the room check; the next sequential data
address and the state that records it. A failed call changes nothing. -/
def allocate (n : Name) (s : State) : Except FaultKind (Nat × State) :=
  if n ∈ declaredNames s then .error .duplicateVariable
  else if s.cfg.dataSize ≤ s.nalloc then .error .outOfDataMemory
  else
    let a := dataBase s.cfg + s.nalloc
    .ok (a, symbolPut n a s)

/-! ### The cycle (R160) -/

/-- Step 1: the instruction in slot PC of the program store, none where `PC >= PLEN` (R161). -/
def fetch (s : State) : Option Instr := s.program[s.pc]?

/-- `RegSet(PC, PC + 1)`, the advance step (R163). -/
def advance (s : State) : State := regSet (.pc ((s.pc : Int) + 1)) s

/-- `CYCLES <- CYCLES + 1` (R165). -/
def countCycle (s : State) : State := { s with cycles := s.cycles + 1 }

/-- `ENGINE <- Halted(h)` (R164, R165). -/
def halt (h : HaltReason) (s : State) : State := { s with engine := .halted h }

/-- Steps 4 and 5: the halt check, then the budget check (R164, R165). -/
def endChecks (i : Instr) (s : State) : State :=
  if i = .hlt then halt .normal s
  else if s.cycles = s.cfg.budget then halt .budget s
  else s

/-- What the cycle does once the instruction's effect has run: nothing if the effect raised; else the advance step,
and if that did not raise, the count and the two checks (R160). -/
def finishCycle (i : Instr) (s : State) : State :=
  match s.engine with
  | .running =>
    let t := advance s
    match t.engine with
    | .running => endChecks i (countCycle t)
    | .halted _ => t
    | .faulted _ => t
  | .halted _ => s
  | .faulted _ => s

/-- The rest of the cycle after `exec` has answered. -/
def afterExec (i : Instr) (o : Host.Outcome State Fault Refusal) : Host.Outcome State Fault Refusal :=
  match o with
  | .next s => .next (finishCycle i s)
  | .fault r => .fault r
  | .refused r => .refused r

/-- Put an instruction into the slot that fetch reads next. Slots below it that hold nothing are filled with the same
instruction, since a program store has no holes (R32). -/
def placeAtPc (i : Instr) (s : State) : State :=
  { s with
    program := (s.program ++ List.replicate (s.pc + 1 - s.program.length) i).set s.pc i
    engine := .running }

end Sys2Proof.Machine
end

