-- ==== Sys2Proof/Machine/Operands.lean ====
section
/-! DEFINITION. The operand forms of 41_load_store.md rule R133 and the slot operand of jumps. -/

namespace Sys2Proof.Machine

/-- Immediate: the operand is the value (R133). -/
def immediate (value : Int) : Int := value

/-- Absolute: the effective address is the operand, with no base, index, scale or indirection (R133). -/
def effectiveAddress (address : Int) : Int := address

/-- The slot a jump writes to PC: the operand itself; the advance step then adds one (R150, R153). -/
def jumpSlot (address : Int) : Int := address

end Sys2Proof.Machine
end

