-- ==== Sys2Proof/Machine/Control.lean ====
section
/-! DEFINITION. Control transfer and halt: JMP, JZS, HLT (43_control.md). Each is the instruction's own effect, step 2
of the cycle; the advance step is `finishCycle`. -/

namespace Sys2Proof.Machine

/-- `JMP address` (R150): `pc <- address`, a checked write. -/
def execJmp (address : Int) (s : State) : Host.Outcome State Fault Refusal :=
  .next (regSet (.pc (jumpSlot address)) s)

/-- `JZS address` (R151): as JMP if ZF, else nothing: the operand is not looked at. -/
def execJzs (address : Int) (s : State) : Host.Outcome State Fault Refusal :=
  if s.zf then .next (regSet (.pc (jumpSlot address)) s) else .next s

/-- `HLT` (R152): `emit HaltSignal`; the halt itself is step 4 of the cycle. -/
def execHlt (s : State) : Host.Outcome State Fault Refusal :=
  .next (emit .haltSignal s)

end Sys2Proof.Machine
end

