-- ==== Sys2Proof/Machine/Declare.lean ====
section
/-! DEFINITION. Variable declaration: DEC (40_declare.md). -/

namespace Sys2Proof.Machine

/-- `DEC name` (R120): `a <- Allocate(name); emit Declared(name, a)`. -/
def execDec (name : Name) (s : State) : Host.Outcome State Fault Refusal :=
  match allocate name s with
  | .ok (a, t) => .next (emit (.declared name a) t)
  | .error k => .next (raise k s)

end Sys2Proof.Machine
end

