-- ==== Sys2Proof/Machine/Flags.lean ====
section
/-! DEFINITION. The zero flag and the one arithmetic write that sets it (42_exchange_arith.md rules R141 to R144). -/

namespace Sys2Proof.Machine

/-- The flag of a result: `r == 0` (R141). -/
def zeroOf (r : Int) : Bool := r == 0

/-- ACC and ZF from an exact result: both written if it is in range, else nothing (R141 to R143). -/
def accumulate (r : Int) (s : State) : State :=
  if ValueOk s.cfg r then regPut (.zf (zeroOf r)) (regPut (.acc r) s) else s

end Sys2Proof.Machine
end

