-- ==== Sys2Proof/Machine/ExchangeArith.lean ====
section
/-! DEFINITION. Exchange and arithmetic: XCH, ADD, SUB (42_exchange_arith.md). -/

namespace Sys2Proof.Machine

/-- `XCH` (R140): ACC and DR swapped, by unchecked assignments. -/
def execXch (s : State) : Host.Outcome State Fault Refusal :=
  let t := s.acc
  .next (regPut (.dr t) (regPut (.acc s.dr) s))

/-- `ADD` (R141): the exact sum `ACC + DR`. -/
def execAdd (s : State) : Host.Outcome State Fault Refusal :=
  .next (accumulate (s.acc + s.dr) s)

/-- `SUB` (R142): the exact difference `ACC - DR`. -/
def execSub (s : State) : Host.Outcome State Fault Refusal :=
  .next (accumulate (s.acc - s.dr) s)

end Sys2Proof.Machine
end

