-- ==== Sys2Proof/Machine/LoadStore.lean ====
section
/-! DEFINITION. Loads and store: LDA, LDI, STR (41_load_store.md). -/

namespace Sys2Proof.Machine

/-- `LDA address` (R130): a number goes to ACC through its checked setter; a raw line raises `ValueOutOfRange`
(decision D12). -/
def execLda (address : Int) (s : State) : Host.Outcome State Fault Refusal :=
  match memRead (effectiveAddress address) s with
  | .ok (.num v) => .next (regSet (.acc v) s)
  | .ok (.line _) => .next (raise .valueOutOfRange s)
  | .error k => .next (raise k s)

/-- `LDI value` (R131): `RegSet(ACC, value)`. -/
def execLdi (value : Int) (s : State) : Host.Outcome State Fault Refusal :=
  .next (regSet (.acc (immediate value)) s)

/-- `STR address` (R132): `MemWrite(address, 1, ACC)`. -/
def execStr (address : Int) (s : State) : Host.Outcome State Fault Refusal :=
  .next (memWrite (effectiveAddress address) s.acc s)

end Sys2Proof.Machine
end

