-- ==== Sys2Proof/Machine/Dispatch.lean ====
section
/-! DEFINITION. `Execute(i)`: one arm per variant and no default arm (45_execution_cycle.md rule R162). -/

namespace Sys2Proof.Machine

/-- `Execute(i)` (R162): the instruction's own effect, step 2 of the cycle. -/
def exec (i : Instr) (s : State) : Host.Outcome State Fault Refusal :=
  match i with
  | .dec name => Sys2Proof.Machine.execDec name s
  | .lda address => Sys2Proof.Machine.execLda address s
  | .ldi value => Sys2Proof.Machine.execLdi value s
  | .str address => Sys2Proof.Machine.execStr address s
  | .xch => Sys2Proof.Machine.execXch s
  | .add => Sys2Proof.Machine.execAdd s
  | .sub => Sys2Proof.Machine.execSub s
  | .jmp address => Sys2Proof.Machine.execJmp address s
  | .jzs address => Sys2Proof.Machine.execJzs address s
  | .hlt => Sys2Proof.Machine.execHlt s

end Sys2Proof.Machine
end

