-- ==== Sys2Proof/Machine/Step.lean ====
section
/-! DEFINITION. One cycle of the machine (45_execution_cycle.md rules R160, R166, R167). -/

namespace Sys2Proof.Machine

/-- One call of `step` (R167): one cycle if the engine is running (R160); in a terminal state nothing changes (R166,
decision D16). -/
def step (s : State) : Host.Outcome State Fault Refusal :=
  match s.engine with
  | .running =>
    match fetch s with
    | none => .next (raise .missingInstruction s)
    | some i => afterExec i (exec i s)
  | .halted _ => .next s
  | .faulted _ => .next s

/-- `s` with the instruction that the decoder reads from `w` in the slot that fetch reads next, and the engine
running. Where the decoder refuses the bits, `s` as it is: such a program is never loaded (R95; log entry 10). -/
def State.withFetchWord (s : State) (nbits w : Nat) : State :=
  match decodeTableWord nbits w with
  | some i => placeAtPc i s
  | none => s

end Sys2Proof.Machine
end

