-- ==== Sys2Proof/Machine/Entry.lean ====
section
/-! DEFINITION. The entry points through which a host drives the core (45_execution_cycle.md rules R167 to R177): reset,
load, run, snapshot, the result; `decode` is `decodeLine`, `step` is in Step.lean. And the hardware reading of the
state (10_state.md rule R39). -/

namespace Sys2Proof.Machine

/-! ### Reset and load -/

/-- Reset, as the host asks for it (R240): every item of R38; the parameters and the program store stay. -/
def hostReset (s : State) : State := { State.reset with cfg := s.cfg, program := s.program }

/-- The state in which `load` may be called: a reset machine, no cycle performed (R171, R175). -/
abbrev MayLoad (s : State) : Prop := s = hostReset s

/-- `MEM[i] <- Line(t_i)` for the payloads from slot `slot` on (R66). -/
def writeLines (slot : Nat) : List Payload → Memory → Memory
  | [], m => m
  | t :: ts, m => writeLines (slot + 1) ts (m.write slot (.line t))

/-- Install a decoded program: refused if it is too long, else PROGRAM and the Line cells (R66, R88). -/
def install (p : List (Instr × Payload)) (s : State) : Except LoadError State :=
  if s.cfg.progSize < p.length then .error .programTooLong
  else .ok { s with program := p.map Prod.fst, mem := writeLines 0 (p.map Prod.snd) s.mem }

/-- `load(lines)` (R88, R171): decode in order, stop at the first failure, then install. -/
def loadLines (lines : List Text) (s : State) : Except LoadError State :=
  match decodeLines lines with
  | .error e => .error e
  | .ok p => install (p.map fun e => (e.1, .line e.2)) s

/-- `load` of a binary program: an invalid word refuses the whole program (R95). -/
def loadWords (words : List Word) (s : State) : Except LoadError State :=
  match decodeWords words with
  | .error e => .error e
  | .ok p => install (p.map fun e => (e.1, .word e.2)) s

/-- `load` of an image as bytes (R100). -/
def loadImage (bytes : List Byte) (s : State) : Except LoadError State :=
  match imageWords bytes with
  | .error e => .error e
  | .ok ws => loadWords ws s

/-! ### Run -/

/-- Cycles until a terminal state, at most `fuel` of them. -/
def runCycles : Nat → State → Host.Outcome State Fault Refusal
  | 0, s => .next s
  | fuel + 1, s =>
    if s.engine = .running then
      match step s with
      | .next t => runCycles fuel t
      | .fault r => .fault r
      | .refused r => .refused r
    else .next s

/-- `run()` (R168): `while ENGINE == Running do Cycle()`. A cycle that does not end the run counts one up to BUDGET, so
`BUDGET - CYCLES` cycles reach the end from every state with `CYCLES < BUDGET`. -/
def run (s : State) : Host.Outcome State Fault Refusal := runCycles (s.cfg.budget - s.cycles) s

/-! ### What the host sees -/

/-- The six error kinds (R200). -/
inductive ErrorKind where
  | duplicateVariable | outOfDataMemory | invalidAddress | valueOutOfRange | unknownOpcode | missingInstruction
  deriving DecidableEq, Repr

/-- The code of an error kind (R200, decision D26). -/
def errorCode : ErrorKind → Nat
  | .duplicateVariable => 1
  | .outOfDataMemory => 2
  | .invalidAddress => 3
  | .valueOutOfRange => 4
  | .unknownOpcode => 5
  | .missingInstruction => 6

/-- The error kind of a fault (R31, R200). -/
def faultError : FaultKind → ErrorKind
  | .duplicateVariable => .duplicateVariable
  | .outOfDataMemory => .outOfDataMemory
  | .invalidAddress => .invalidAddress
  | .valueOutOfRange => .valueOutOfRange
  | .missingInstruction => .missingInstruction

/-- The error kind of a load-time refusal, where the source has one (R205, R207). -/
def refusalError : LoadError → Option ErrorKind
  | .unknownOpcode => some .unknownOpcode
  | .badOperand => none
  | .programTooLong => none
  | .operandTooWide => none
  | .truncatedImage => none

/-- The discriminated result a caller receives (R173). -/
inductive RunResult where
  | stillRunning
  | haltedNormally
  | haltedOnBudget
  | stoppedOnMissingInstruction
  | faultedWith (kind : ErrorKind)
  deriving DecidableEq, Repr

/-- The result of an engine state (R173). -/
def resultOf : Engine → RunResult
  | .running => .stillRunning
  | .halted .normal => .haltedNormally
  | .halted .budget => .haltedOnBudget
  | .faulted .missingInstruction => .stoppedOnMissingInstruction
  | .faulted .duplicateVariable => .faultedWith .duplicateVariable
  | .faulted .outOfDataMemory => .faultedWith .outOfDataMemory
  | .faulted .invalidAddress => .faultedWith .invalidAddress
  | .faulted .valueOutOfRange => .faultedWith .valueOutOfRange

/-- The five fields of `snapshot` (R170). -/
structure Snapshot where
  pc : Nat
  accumulator : Int
  dataRegister : Int
  zeroFlag : Bool
  currentCell : Cell
  deriving DecidableEq, Repr

/-- `snapshot` (R170): a pure read; `current_cell = MEM[PC]` (decision D22). -/
def snapshot (s : State) : Snapshot :=
  { pc := s.pc, accumulator := s.acc, dataRegister := s.dr, zeroFlag := s.zf, currentCell := s.mem.read s.pc }

/-- The logical outputs of the block (R177). -/
structure Outputs where
  engineState : RunResult
  view : Snapshot
  events : List Event
  deriving DecidableEq, Repr

/-- The logical outputs of a state (R177). -/
def outputs (s : State) : Outputs :=
  { engineState := resultOf s.engine, view := snapshot s, events := s.trace }

/-! ### The hardware reading of the values (R39) -/

/-- The least width that holds the unsigned range `0 .. n` (R39): no bit for 0, else the bits of `n`. -/
def unsignedBits (n : Nat) : Nat := if n = 0 then 0 else n.log2 + 1

/-- The bits a value needs below the sign bit in two's complement: `v` and `-v - 1` need the same. -/
def magnitudeBits (v : Int) : Nat := if 0 ≤ v then unsignedBits v.toNat else unsignedBits (-v - 1).toNat

/-- The least width that holds the range `lo .. hi` in two's complement (R39): a sign bit and the bits of the longer
bound; no bit where the range is 0 alone. -/
def signedBits (lo hi : Int) : Nat :=
  if lo = 0 ∧ hi = 0 then 0 else max (magnitudeBits lo) (magnitudeBits hi) + 1

/-- The width of ACC, DR and the number in a cell: 16 for the default parameters (R39). -/
def valueBits (c : Config) : Nat := signedBits c.valMin c.valMax

/-- The width of PC: 7 for the default parameters (R39). -/
def pcBits (c : Config) : Nat := unsignedBits (c.progSize - 1)

/-- The width of NALLOC: 8 for the default parameters (R39). -/
def nallocBits (c : Config) : Nat := unsignedBits c.dataSize

/-- The width of CYCLES: 10 for the default parameters (R39). -/
def cyclesBits (c : Config) : Nat := unsignedBits c.budget

/-- The registers and counters at the widths R39 gives for the machine's parameters. -/
structure HardwareView (c : Config) where
  acc : BitVec (valueBits c)
  dr : BitVec (valueBits c)
  pc : BitVec (pcBits c)
  zf : Bool
  nalloc : BitVec (nallocBits c)
  cycles : BitVec (cyclesBits c)
  deriving DecidableEq, Repr

/-- The hardware reading of a state: two's complement registers, unsigned PC and counters (R39). -/
def hardwareView (s : State) : HardwareView s.cfg :=
  { acc := BitVec.ofInt _ s.acc, dr := BitVec.ofInt _ s.dr, pc := BitVec.ofNat _ s.pc, zf := s.zf
    nalloc := BitVec.ofNat _ s.nalloc, cycles := BitVec.ofNat _ s.cycles }

/-- A cell in hardware: a tag bit telling `Num` from `Line`, and a value (R39). DESIGN CHOICE, the spec leaves both open:
the tag is false for `Num` and true for `Line`, and the value part of a `Line`, whose payload is opaque,
is given as 0 (log entry 30). Safe: no step reads this view. -/
def hardwareCell (c : Config) : Cell → Bool × BitVec (valueBits c)
  | .num v => (false, BitVec.ofInt _ v)
  | .line _ => (true, 0#_)

/-! ### Renaming -/

/-- An event with its name replaced. -/
def renameEvent (f : Name → Name) : Event → Event
  | .declared n a => .declared (f n) a
  | .haltSignal => .haltSignal

/-- A machine with every name replaced: the program, the symbol table and the trace. Relates a program loaded as text
to the same program loaded as words (R7, R93). -/
def renameState (f : Name → Name) (s : State) : State :=
  { s with
    program := s.program.map (Instr.mapName f)
    symtab := s.symtab.map fun e => (f e.1, e.2)
    trace := s.trace.map (renameEvent f) }

end Sys2Proof.Machine
end

