-- ==== Sys2Proof/Safety.lean ====
section
/-! DEFINITION. The terms claims are stated in: the parameters a machine may have, the invariants of 10_state.md rule
R37, terminal states, and the good end of a run, which the claim and not the machine names (45_execution_cycle.md rule
R174). -/

namespace Sys2Proof.Machine

/-- Parameters a machine can have: the reset values lie in the ranges (R38), and a machine that has just been reset has
a cycle to spend. `PC_MIN` is 0 because PC is 0 after reset and never negative. -/
abbrev ConfigOk (c : Config) : Prop :=
  c.pcMin = 0 ∧ 0 < c.progSize ∧ c.valMin ≤ 0 ∧ 0 ≤ c.valMax ∧ 0 < c.budget

/-- R37 (a), (b): the registers are in range. -/
abbrev RegistersOk (s : State) : Prop := ValueOk s.cfg s.acc ∧ ValueOk s.cfg s.dr ∧ PcOk s.cfg s.pc

/-- What R37 (c), (e) say of one listed cell: its address exists, a number is in range, a line lies below PLEN. -/
def cellOk (c : Config) (plen : Nat) (e : Nat × Cell) : Bool :=
  decide (e.1 < addrLimit c) &&
    match e.2 with
    | .num v => decide (ValueOk c v)
    | .line _ => decide (e.1 < plen)

/-- R37 (c), (e): memory is in canonical form and every listed cell is as it must be. -/
abbrev MemoryOk (s : State) : Prop :=
  s.mem.wf ∧ ∀ e ∈ s.mem, cellOk s.cfg s.program.length e = true

/-- R37 (d): SYMTAB has NALLOC entries with distinct names, the k-th at `DATA_BASE + k`, and they fit. -/
abbrev SymbolsOk (s : State) : Prop :=
  (declaredNames s).Nodup ∧
  s.symtab.map Prod.snd = (List.range s.nalloc).map (dataBase s.cfg + ·) ∧
  s.nalloc ≤ s.cfg.dataSize

/-- R37 (f): `CYCLES <= BUDGET`, and equal only in a terminal state. -/
abbrev CyclesOk (s : State) : Prop :=
  s.cycles ≤ s.cfg.budget ∧ (s.cycles = s.cfg.budget → s.engine ≠ .running)

/-- The invariant of the machine (R37), with what R5, R32 and R38 say of its parameters and program. -/
structure Inv (s : State) : Prop where
  config : ConfigOk s.cfg
  program : s.program.length ≤ s.cfg.progSize
  registers : RegistersOk s
  memory : MemoryOk s
  symbols : SymbolsOk s
  cycles : CyclesOk s

/-- The names that the program's DEC instructions declare. -/
def programNames : List Instr → List Name
  | [] => []
  | .dec n :: is => n :: programNames is
  | _ :: is => programNames is

/-- Every declared name is one that a DEC of the program declares (R121). -/
def NamesFromProgram (s : State) : Prop := ∀ n ∈ declaredNames s, n ∈ programNames s.program

/-- The engine is in a terminal state (R166). -/
abbrev Terminal (s : State) : Prop := s.engine ≠ .running

/-! ### The encoding clause of an instruction rule

The words are decisions D2, D3 of the spec (log entry 23), the shape and number of operand tokens decisions D6, D7, D8 and
six of the mnemonics decision D4 (log entry 24). -/

/-- A line and a word stand for an instruction with no operand (R94). -/
def PlainCoding (mnemonic : Text) (w : Word) (i : Instr) : Prop :=
  decodeLine mnemonic = .ok (some i) ∧ encode i = some w ∧ decodeWord w = .ok i

/-- The lines and words of an instruction with one integer operand: any numeric token of any magnitude in a line, and
the word `base + (v mod 2^24)` where the operand fits (R84, R92). -/
def IntegerCoding (mnemonic : Text) (base : Int) (make : Int → Instr) : Prop :=
  (∀ tok, isNumeric tok = true → decodeLine (mnemonic ++ ' ' :: tok) = .ok (some (make (tokenValue tok)))) ∧
  ∀ v, FitsOperand v →
    ∃ w : Word, (w.toNat : Int) = base + v % 2 ^ 24 ∧ encode (make v) = some w ∧ decodeWord w = .ok (make v)

/-- The lines and words of an instruction with one name: any name token in a line, and the word `base + sym24`
(R85, R93). -/
def NameCoding (mnemonic : Text) (base : Nat) (make : Name → Instr) : Prop :=
  (∀ tok, isNameToken tok = true → decodeLine (mnemonic ++ ' ' :: tok) = .ok (some (make (.text tok)))) ∧
  ∀ n, FitsSymbol n →
    ∃ w : Word, w.toNat = base + n ∧ encode (make (.symbol n)) = some w ∧ decodeWord w = .ok (make (.symbol n))

/-! ### Runs -/

/-- A cell with the payload of a `Line` replaced by the empty line. -/
def eraseCell : Cell → Cell
  | .num v => .num v
  | .line _ => .line (.line [])

/-- A machine with every `Line` payload replaced by the empty line: what is left of it if no rule looks inside a payload
(R28). -/
def eraseLines (s : State) : State := { s with mem := s.mem.map fun e => (e.1, eraseCell e.2) }

/-- A run that ends as a claim names it: the outcome `good` is the claim's, not the machine's (R174). -/
def EndsWith (good : RunResult) (s : State) : Prop := ∃ t, run s = .next t ∧ resultOf t.engine = good

end Sys2Proof.Machine
end

