-- ==== Sys2Proof/Certificates/Slice0/Obligations.lean ====
section
/-! DEFINITION. The statements for the provers, from the spec's numbered rules. A clause that rests on one of the spec's
own decisions (92_eei_decisions.md) or on a choice of the model says so in its docstring. -/

open Sys2Proof Sys2Proof.Machine

/-! ### Encoding -/

/-- Words written out in 95_test_vectors.md section 4, in the encoding that decisions D2, D3 and D5 chose. -/
def Obligations.DecodesTheSpecsWords : Prop :=
  decodeWord 0x10000001#32 = .ok (.dec (.symbol 1)) ∧
  decodeWord 0x20000080#32 = .ok (.lda 128) ∧
  decodeWord 0x30800000#32 = .ok (.ldi (-8388608)) ∧
  decodeWord 0x400000FF#32 = .ok (.str 255) ∧
  decodeWord 0x50000000#32 = .ok .xch ∧
  decodeWord 0x60000000#32 = .ok .add ∧
  decodeWord 0x70000000#32 = .ok .sub ∧
  decodeWord 0x80000004#32 = .ok (.jmp 4) ∧
  decodeWord 0x90FFFFFF#32 = .ok (.jzs (-1)) ∧
  decodeWord 0xA0000000#32 = .ok .hlt ∧
  decodeWord 0x00000000#32 = .error .unknownOpcode ∧
  decodeWord 0xB0000000#32 = .error .unknownOpcode ∧
  decodeWord 0x31000005#32 = .error .unknownOpcode ∧
  decodeWord 0x50000001#32 = .error .unknownOpcode

/-- Every well-formed instruction has a word, and the word decodes to it (R90 to R94; the word format is decision D2). -/
def Obligations.DecodeOfEncodeIsTheInstruction : Prop :=
  ∀ i : Instr, i.wellFormed = true → ∃ w, encode i = some w ∧ decodeWord w = .ok i

/-- A word that decodes is the word of its instruction, which is well formed: no word has a second spelling (R95, R96;
the word format is decision D2). -/
def Obligations.EncodeOfDecodeIsTheWord : Prop :=
  ∀ (w : Word) (i : Instr), decodeWord w = .ok i → encode i = some w ∧ i.wellFormed = true

/-- The decoder is the table-driven decoder of R99: a word decodes exactly when a row's mask and pattern select it, at
most one row does, and every other word is refused with `UnknownOpcode` (R95, decision D5). -/
def Obligations.DecoderIsTheMaskTable : Prop :=
  ∀ w : Word,
    ((∃ i, decodeWord w = .ok i) ↔ ∃ r ∈ opcodeRows, r.selects w = true) ∧
    (∀ r ∈ opcodeRows, ∀ q ∈ opcodeRows, r.selects w = true → q.selects w = true → r = q) ∧
    ((∀ r ∈ opcodeRows, r.selects w = false) → decodeWord w = .error .unknownOpcode)

/-- An instruction that can be written as a line prints as one, and decoding the printed line gives it back (R101). -/
def Obligations.DecodeOfPrintIsTheInstruction : Prop :=
  ∀ i : Instr, i.printable = true → ∃ l, printLine i = some l ∧ decodeLine l = .ok (some i)

/-- Whatever instruction the text decoder gives can be written as a line: a name it passes through is a name token (R82,
R85). -/
def Obligations.DecodedLinesArePrintable : Prop :=
  ∀ (line : Text) (i : Instr), decodeLine line = .ok (some i) → i.printable = true

/-- The mnemonic is matched after uppercasing its ASCII letters, and a first token that is no mnemonic is an unknown
opcode whatever follows it (R82, R83). -/
def Obligations.MnemonicsIgnoreCase : Prop :=
  (∀ (l l' t t' : Text) (ops : List Text), tokens l = t :: ops → tokens l' = t' :: ops →
    t.map upperChar = t'.map upperChar → decodeLine l = decodeLine l') ∧
  ∀ (l t : Text) (ops : List Text), tokens l = t :: ops →
    (∀ r ∈ opcodeRows, r.mnemonic ≠ t.map upperChar) → decodeLine l = .error .unknownOpcode

/-- The operand tokens an opcode takes are those of its format: none, one numeric token, or one token that is not
numeric; any other operand tokens are refused with `BadOperand` (R84, R85, R86; decisions D6, D7, D8). -/
def Obligations.OperandTokensMatchTheFormat : Prop :=
  ∀ (l t : Text) (ops : List Text) (op : Opcode), tokens l = t :: ops → opcodeOfToken t = some op →
    ((∃ i, decodeLine l = .ok (some i)) ↔
      match (rowOf op).format with
      | .zero => ops = []
      | .integer => ∃ tok, ops = [tok] ∧ isNumeric tok = true
      | .symbol => ∃ tok, ops = [tok] ∧ isNumeric tok = false) ∧
    ((∀ i, decodeLine l ≠ .ok (some i)) → decodeLine l = .error .badOperand)

/-- A line of separators only yields no instruction and takes no slot: leaving it out of a program changes nothing (R87,
derived there). -/
def Obligations.BlankLinesTakeNoSlot : Prop :=
  ∀ (before after : List Text) (l : Text), l.all isBlank = true →
    decodeLines (before ++ l :: after) = decodeLines (before ++ after)

/-- The words of a serialised image are the words it was made from (R100, decision D19). -/
def Obligations.ImageBytesRoundTrip : Prop :=
  ∀ ws : List Word, imageWords (imageBytes ws) = .ok ws

/-- A program that came in as text and was assembled decodes, word by word, to the same program with each name replaced
by its symbol number, and the listing gives the names back (R93, R97). -/
def Obligations.AssembledProgramDecodesToItself : Prop :=
  ∀ (is : List Instr) (ws : List Word) (names : List Text),
    (∀ n, .dec n ∈ is → ∃ t, n = .text t) → assemble is = .ok (ws, names) →
    decodeWords ws = .ok ((is.map (Instr.mapName (numberName names))).zip ws) ∧
    (is.map (Instr.mapName (numberName names))).map (Instr.mapName (spellName names)) = is

/-! ### The ten instructions: the instruction's own effect, step 2 of the cycle -/

/-- DEC (R120): a name already declared and a full data range raise, in that order (decision D24), with nothing written;
else the next sequential address is recorded and reported. No register and no cell changes. The coding clause rests on decisions
D2, D3 (log entry 23), and the mnemonic is decision D4, G1 (log entry 24, PRESUMED). -/
def Obligations.DecDeclaresTheNextAddress : Prop :=
  (∀ (s : State) (n : Name), exec (.dec n) s = .next
    (if n ∈ declaredNames s then { s with engine := .faulted .duplicateVariable }
     else if s.cfg.dataSize ≤ s.nalloc then { s with engine := .faulted .outOfDataMemory }
     else { s with
       symtab := s.symtab ++ [(n, s.cfg.progSize + s.nalloc)]
       nalloc := s.nalloc + 1
       trace := s.trace ++ [.declared n (s.cfg.progSize + s.nalloc)] })) ∧
  NameCoding ['D', 'E', 'C'] 0x10000000 .dec

/-- LDA (R130): the number in the addressed cell goes to ACC. An address in neither range raises `InvalidAddress`; a raw
line raises `ValueOutOfRange`, which is decision D12. The coding clause rests on decisions D2, D3 (log entry 23), and the
mnemonic is decision D4, G1 (log entry 24, PRESUMED). -/
def Obligations.LdaLoadsTheCell : Prop :=
  (∀ (s : State) (a : Int), exec (.lda a) s = .next
    (if 0 ≤ a ∧ a < (s.cfg.progSize : Int) + s.cfg.dataSize then
      match s.mem.read a.toNat with
      | .num v =>
        if s.cfg.valMin ≤ v ∧ v ≤ s.cfg.valMax then { s with acc := v }
        else { s with engine := .faulted .valueOutOfRange }
      | .line _ => { s with engine := .faulted .valueOutOfRange }
     else { s with engine := .faulted .invalidAddress })) ∧
  IntegerCoding ['L', 'D', 'A'] 0x20000000 .lda

/-- LDI (R131): ACC is the value if it is in range; else `ValueOutOfRange` and nothing else changes. The coding
clause, the word `0x30000000 + (v mod 2^24)`, rests on decisions D2 and D3 (log entry 23, DEDUCED). -/
def Obligations.LdiSetsTheAccumulator : Prop :=
  (∀ (s : State) (v : Int), exec (.ldi v) s = .next
    (if s.cfg.valMin ≤ v ∧ v ≤ s.cfg.valMax then { s with acc := v }
     else { s with engine := .faulted .valueOutOfRange })) ∧
  IntegerCoding ['L', 'D', 'I'] 0x30000000 .ldi

/-- STR (R132), with ACC in range as it always is (R37): the addressed cell becomes `Num(ACC)`, every other cell and
everything else stays; an address in neither range raises `InvalidAddress` and writes nothing. The coding clause
rests on decisions D2 and D3 (log entry 23, DEDUCED), and the mnemonic STR is decision D4, G1 (log entry 24,
PRESUMED). -/
def Obligations.StrStoresTheAccumulator : Prop :=
  (∀ (s : State) (a : Int), s.mem.wf → s.cfg.valMin ≤ s.acc → s.acc ≤ s.cfg.valMax →
    (0 ≤ a → a < (s.cfg.progSize : Int) + s.cfg.dataSize →
      ∃ m : Memory, exec (.str a) s = .next { s with mem := m } ∧
        m.read a.toNat = .num s.acc ∧ ∀ b : Nat, b ≠ a.toNat → m.read b = s.mem.read b) ∧
    (a < 0 ∨ (s.cfg.progSize : Int) + s.cfg.dataSize ≤ a →
      exec (.str a) s = .next { s with engine := .faulted .invalidAddress })) ∧
  IntegerCoding ['S', 'T', 'R'] 0x40000000 .str

/-- XCH (R140): the new ACC is the old DR and the new DR the old ACC, nothing else changes, and two in a row restore
both. The coding clause, the word 0x50000000, rests on decisions D2 and D3 (log entry 23, DEDUCED). -/
def Obligations.XchSwapsTheRegisters : Prop :=
  (∀ s : State, exec .xch s = .next { s with acc := s.dr, dr := s.acc }) ∧
  (∀ s t : State, exec .xch s = .next t → exec .xch t = .next s) ∧
  PlainCoding ['X', 'C', 'H'] 0x50000000#32 .xch

/-- ADD (R141): the exact sum is written with its flag if it is in range; else nothing at all changes. The
coding clause, the word 0x60000000, rests on decisions D2 and D3 (log entry 23, DEDUCED). -/
def Obligations.AddWritesSumAndFlagOrNothing : Prop :=
  (∀ s : State, exec .add s = .next
    (if s.cfg.valMin ≤ s.acc + s.dr ∧ s.acc + s.dr ≤ s.cfg.valMax then
      { s with acc := s.acc + s.dr, zf := decide (s.acc + s.dr = 0) }
     else s)) ∧
  PlainCoding ['A', 'D', 'D'] 0x60000000#32 .add

/-- SUB (R142): the same with the exact difference ACC - DR. The coding clause rests on decisions D2 and D3 (log entry
23, DEDUCED), and the mnemonic SUB is decision D4, G1 (log entry 24, PRESUMED). -/
def Obligations.SubWritesDifferenceAndFlagOrNothing : Prop :=
  (∀ s : State, exec .sub s = .next
    (if s.cfg.valMin ≤ s.acc - s.dr ∧ s.acc - s.dr ≤ s.cfg.valMax then
      { s with acc := s.acc - s.dr, zf := decide (s.acc - s.dr = 0) }
     else s)) ∧
  PlainCoding ['S', 'U', 'B'] 0x70000000#32 .sub

/-- JMP (R150, R153): PC is the operand, and after the advance step the next fetch is from the operand plus one. The
fault of the advance step after `JMP PC_MAX` is decision D13. The coding clause rests on decisions D2, D3 (log entry 23),
and the mnemonic is decision D4, G1 (log entry 24, PRESUMED). -/
def Obligations.JmpResumesAfterItsOperand : Prop :=
  (∀ (s : State) (a : Int), exec (.jmp a) s = .next
    (if (s.cfg.pcMin : Int) ≤ a ∧ a ≤ (s.cfg.progSize : Int) - 1 then { s with pc := a.toNat }
     else { s with engine := .faulted .valueOutOfRange })) ∧
  (∀ (s : State) (a : Int), s.engine = .running → fetch s = some (.jmp a) →
    ((s.cfg.pcMin : Int) ≤ a → a < (s.cfg.progSize : Int) - 1 → step s = .next
      { s with
        pc := a.toNat + 1
        cycles := s.cycles + 1
        engine := if s.cycles + 1 = s.cfg.budget then .halted .budget else .running }) ∧
    ((s.cfg.pcMin : Int) ≤ a → a = (s.cfg.progSize : Int) - 1 → step s = .next
      { s with pc := a.toNat, engine := .faulted .valueOutOfRange }) ∧
    (a < s.cfg.pcMin ∨ (s.cfg.progSize : Int) - 1 < a → step s = .next
      { s with engine := .faulted .valueOutOfRange })) ∧
  IntegerCoding ['J', 'M', 'P'] 0x80000000 .jmp

/-- JZS (R151): with ZF the effect of JMP; without ZF nothing, whatever the operand; ZF is kept either way. The next
fetch after a completed cycle is from the operand plus one if taken, else from the slot after the JZS. The fault of the
advance step is decision D13. The coding clause rests on decisions D2, D3 (log entry 23), and the mnemonic is
decision D4, G1 (log entry 24, PRESUMED). -/
def Obligations.JzsJumpsOnlyOnZero : Prop :=
  (∀ (s : State) (a : Int), exec (.jzs a) s = .next
    (if s.zf = true then
      if (s.cfg.pcMin : Int) ≤ a ∧ a ≤ (s.cfg.progSize : Int) - 1 then { s with pc := a.toNat }
      else { s with engine := .faulted .valueOutOfRange }
     else s)) ∧
  (∀ (s : State) (a : Int), s.engine = .running → fetch s = some (.jzs a) →
    (s.zf = true → (s.cfg.pcMin : Int) ≤ a → a < (s.cfg.progSize : Int) - 1 → step s = .next
      { s with
        pc := a.toNat + 1
        cycles := s.cycles + 1
        engine := if s.cycles + 1 = s.cfg.budget then .halted .budget else .running }) ∧
    (s.zf = true → (s.cfg.pcMin : Int) ≤ a → a = (s.cfg.progSize : Int) - 1 → step s = .next
      { s with pc := a.toNat, engine := .faulted .valueOutOfRange }) ∧
    (s.zf = true → a < s.cfg.pcMin ∨ (s.cfg.progSize : Int) - 1 < a → step s = .next
      { s with engine := .faulted .valueOutOfRange }) ∧
    (s.zf = false → PcOk s.cfg ((s.pc : Int) + 1) → step s = .next
      { s with
        pc := s.pc + 1
        cycles := s.cycles + 1
        engine := if s.cycles + 1 = s.cfg.budget then .halted .budget else .running })) ∧
  IntegerCoding ['J', 'Z', 'S'] 0x90000000 .jzs

/-- HLT (R152): its own effect is the signal alone; its cycle advances PC and halts normally. In the last slot the
advance step faults instead, which is decision D13. The coding clause rests on decisions D2, D3 (log entry 23). -/
def Obligations.HltSignalsAndHalts : Prop :=
  (∀ s : State, exec .hlt s = .next { s with trace := s.trace ++ [.haltSignal] }) ∧
  (∀ s : State, s.engine = .running → fetch s = some .hlt →
    (PcOk s.cfg ((s.pc : Int) + 1) → step s = .next
      { s with
        pc := s.pc + 1
        cycles := s.cycles + 1
        trace := s.trace ++ [.haltSignal]
        engine := .halted .normal }) ∧
    (¬ PcOk s.cfg ((s.pc : Int) + 1) → step s = .next
      { s with trace := s.trace ++ [.haltSignal], engine := .faulted .valueOutOfRange })) ∧
  PlainCoding ['H', 'L', 'T'] 0xA0000000#32 .hlt

/-! ### Shared operations -/

/-- Classification of an address by the number alone; every program or data address can be read, and written with a
value in range, whatever was declared or written before (R51). -/
def Obligations.AddressesAreClassifiedByNumber : Prop :=
  (∀ (c : Config) (a : Int),
    (classify c a = .program ↔ 0 ≤ a ∧ a < (c.progSize : Int)) ∧
    (classify c a = .data ↔ (c.progSize : Int) ≤ a ∧ a < (c.progSize : Int) + c.dataSize) ∧
    (classify c a = .invalid ↔ a < 0 ∨ (c.progSize : Int) + c.dataSize ≤ a)) ∧
  ∀ (s : State) (a v : Int), classify s.cfg a ≠ .invalid →
    (∃ c, memRead a s = .ok c) ∧
    (s.cfg.valMin ≤ v → v ≤ s.cfg.valMax → (memWrite a v s).engine = s.engine)

/-- `MemRead` (R52): the cell at an address of either range, else `InvalidAddress`. -/
def Obligations.MemReadGivesTheCellOrInvalidAddress : Prop :=
  ∀ (s : State) (a : Int),
    (0 ≤ a → a < (s.cfg.progSize : Int) + s.cfg.dataSize → memRead a s = .ok (s.mem.read a.toNat)) ∧
    (a < 0 ∨ (s.cfg.progSize : Int) + s.cfg.dataSize ≤ a → memRead a s = .error .invalidAddress)

/-- `MemWrite` (R53): the value is checked before the address (the order is decision D24); a write that passes both is
read back, and a write that fails either changes nothing but ENGINE. -/
def Obligations.MemWriteChecksValueThenAddress : Prop :=
  ∀ (s : State) (a v : Int), s.mem.wf →
    (v < s.cfg.valMin ∨ s.cfg.valMax < v → memWrite a v s = { s with engine := .faulted .valueOutOfRange }) ∧
    (s.cfg.valMin ≤ v → v ≤ s.cfg.valMax → a < 0 ∨ (s.cfg.progSize : Int) + s.cfg.dataSize ≤ a →
      memWrite a v s = { s with engine := .faulted .invalidAddress }) ∧
    (s.cfg.valMin ≤ v → v ≤ s.cfg.valMax → 0 ≤ a → a < (s.cfg.progSize : Int) + s.cfg.dataSize →
      memRead a (memWrite a v s) = .ok (.num v) ∧
      ∀ b : Int, b ≠ a → memRead b (memWrite a v s) = memRead b s)

/-- `RegSet` (R25): a legal value is read back and the other registers keep theirs; an illegal one raises
`ValueOutOfRange` and every register keeps its old value. Legal are `VAL_MIN .. VAL_MAX` for ACC and DR, `PC_MIN ..
PC_MAX` for PC, with `PC_MAX = PROG_SIZE - 1`, and any boolean for ZF. -/
def Obligations.RegSetIsRangeChecked : Prop :=
  (∀ (s : State) (r : RegValue),
    (regLegal s.cfg r = true →
      regRead r.reg (regSet r s) = r ∧
      (∀ q, q ≠ r.reg → regRead q (regSet r s) = regRead q s) ∧ (regSet r s).engine = s.engine) ∧
    (regLegal s.cfg r = false →
      (∀ q, regRead q (regSet r s) = regRead q s) ∧ (regSet r s).engine = .faulted .valueOutOfRange)) ∧
  (∀ (c : Config) (v : Int),
    (regLegal c (.acc v) = true ↔ c.valMin ≤ v ∧ v ≤ c.valMax) ∧
    (regLegal c (.dr v) = true ↔ c.valMin ≤ v ∧ v ≤ c.valMax) ∧
    (regLegal c (.pc v) = true ↔ (c.pcMin : Int) ≤ v ∧ v ≤ (c.progSize : Int) - 1)) ∧
  ∀ (c : Config) (b : Bool), regLegal c (.zf b) = true

/-! ### The cycle -/

/-- A step runs the instruction in the slot at PC (R160, R162): `exec`, and, if it did not raise, the checked advance of
PC, the count, the halt check and the budget check in that order. A word that decodes, placed where the fetch reads, is
the instruction that is fetched. The fault of the advance step is decision D13, the placing is log entry 10. -/
def Obligations.StepRunsTheDecodedInstruction : Prop :=
  (∀ (s t : State) (i : Instr), s.engine = .running → fetch s = some i → exec i s = .next t →
    (t.engine ≠ .running → step s = .next t) ∧
    (t.engine = .running → ¬ PcOk t.cfg ((t.pc : Int) + 1) →
      step s = .next { t with engine := .faulted .valueOutOfRange }) ∧
    (t.engine = .running → PcOk t.cfg ((t.pc : Int) + 1) → step s = .next
      { t with
        pc := t.pc + 1
        cycles := t.cycles + 1
        engine :=
          if i = .hlt then .halted .normal
          else if t.cycles + 1 = t.cfg.budget then .halted .budget
          else .running })) ∧
  ∀ (s : State) (w : Word) (i : Instr), decodeWord w = .ok i →
    fetch (s.withFetchWord 32 w.toNat) = some i ∧ (s.withFetchWord 32 w.toNat).engine = .running

/-- An absent slot stops the cycle: only ENGINE changes (R161); a present one is read from PROGRAM, not from MEM. -/
def Obligations.FetchOfAnAbsentSlotStops : Prop :=
  ∀ s : State, s.engine = .running →
    (s.program.length ≤ s.pc → step s = .next { s with engine := .faulted .missingInstruction }) ∧
    (∀ i, s.program[s.pc]? = some i → fetch s = some i ∧ ∀ m : Memory, fetch { s with mem := m } = some i)

/-- The halt check comes after the advance and before the budget check (R164): a cycle halts normally exactly when its
instruction is HLT and the advance did not raise; PC has then advanced, and this holds also in the cycle whose count
reaches the budget. -/
def Obligations.HaltCheckPrecedesBudgetCheck : Prop :=
  ∀ s t : State, s.engine = .running → step s = .next t →
    (t.engine = .halted .normal ↔ fetch s = some .hlt ∧ ∀ k, t.engine ≠ .faulted k) ∧
    (t.engine = .halted .normal → t.pc = s.pc + 1) ∧
    (fetch s = some .hlt → s.cycles + 1 = s.cfg.budget → t.engine ≠ .halted .budget)

/-- A call of `step` in a terminal state changes nothing (R166, decision D16). -/
def Obligations.TerminalStatesAbsorb : Prop :=
  ∀ s : State, s.engine ≠ .running → step s = .next s

/-- No step of the machine stops without a next state: a raise is a state with ENGINE faulted (R210; log entry 1 is the
model's choice to show it so). -/
def Obligations.EveryStepAnswersANextState : Prop :=
  ∀ s : State, ∃ t, step s = .next t

/-- CYCLES counts completed cycles and the budget cuts a run (R30, R165; the point of the count is decision D15): from a
running state the count goes up by one unless the cycle faulted, the engine runs on only below the budget, and it halts
on the budget only at the budget. -/
def Obligations.CyclesCountCompletedCycles : Prop :=
  ∀ s t : State, s.engine = .running → step s = .next t →
    ((∃ k, t.engine = .faulted k) → t.cycles = s.cycles) ∧
    ((∀ k, t.engine ≠ .faulted k) → t.cycles = s.cycles + 1) ∧
    (t.engine = .running → t.cycles ≠ s.cfg.budget) ∧
    (t.engine = .halted .budget → t.cycles = s.cfg.budget ∧ fetch s ≠ some .hlt) ∧
    (t.engine = .halted .normal → fetch s = some .hlt)

/-- An instruction executed in slot PC_MAX faults in the advance step unless it is a taken jump: its cycle is not counted
and PC stays (R245; decision D13). -/
def Obligations.LastSlotCannotComplete : Prop :=
  ∀ (s : State) (i : Instr), s.engine = .running → (s.pc : Int) = pcMax s.cfg → fetch s = some i →
    (∀ a, i ≠ .jmp a) → (∀ a, i = .jzs a → s.zf = false) →
    ∃ t k, step s = .next t ∧ t.engine = .faulted k ∧ t.pc = s.pc ∧ t.cycles = s.cycles

/-- No cycle that completes leaves PC at slot 0: no jump can reach it (R244, derived there from R150, R153). -/
def Obligations.SlotZeroIsNeverReachedByACycle : Prop :=
  ∀ s t : State, s.engine = .running → step s = .next t → (∀ k, t.engine ≠ .faulted k) → 0 < t.pc

/-! ### What an instruction leaves unchanged -/

/-- LDA, LDI, XCH, ADD, SUB, JMP, JZS, HLT (every instruction but DEC and STR) store nothing: every cell, the symbol
table, the counters, the program and the parameters stay. Of the registers only the destinations change: ACC by LDA,
LDI, XCH, ADD, SUB; DR by XCH; ZF by ADD, SUB; PC by JMP, JZS. ENGINE changes only by a raise (R26, R57). -/
def Obligations.RegisterInstructionsFrame : Prop :=
  ∀ (s t : State) (i : Instr), (∀ n, i ≠ .dec n) → (∀ a, i ≠ .str a) → exec i s = .next t →
    (∀ a : Nat, t.mem.read a = s.mem.read a) ∧
    t.symtab = s.symtab ∧ t.nalloc = s.nalloc ∧ t.cycles = s.cycles ∧ t.program = s.program ∧ t.cfg = s.cfg ∧
    (t.acc = s.acc ∨ (∃ a, i = .lda a) ∨ (∃ v, i = .ldi v) ∨ i = .xch ∨ i = .add ∨ i = .sub) ∧
    (t.dr = s.dr ∨ i = .xch) ∧
    (t.zf = s.zf ∨ i = .add ∨ i = .sub) ∧
    (t.pc = s.pc ∨ (∃ a, i = .jmp a) ∨ ∃ a, i = .jzs a) ∧
    (t.trace = s.trace ∨ i = .hlt) ∧
    (t.engine = s.engine ∨ ∃ k, t.engine = .faulted k)

/-- STR changes the cell at its effective address and nothing else but, by a raise, ENGINE (R26, R57, R132). -/
def Obligations.StoreFrame : Prop :=
  ∀ (s t : State) (a : Int), exec (.str a) s = .next t →
    (∀ x : Int, effectiveAddress a = x → ∀ b : Nat, (b : Int) ≠ x → t.mem.read b = s.mem.read b) ∧
    t.acc = s.acc ∧ t.dr = s.dr ∧ t.pc = s.pc ∧ t.zf = s.zf ∧
    t.symtab = s.symtab ∧ t.nalloc = s.nalloc ∧ t.cycles = s.cycles ∧ t.program = s.program ∧ t.cfg = s.cfg ∧
    t.trace = s.trace ∧ (t.engine = s.engine ∨ ∃ k, t.engine = .faulted k)

/-- DEC changes the symbol table, its count and the trace, and by a raise ENGINE; no register and no cell (R26, R120). -/
def Obligations.DeclareFrame : Prop :=
  ∀ (s t : State) (n : Name), exec (.dec n) s = .next t →
    (∀ a : Nat, t.mem.read a = s.mem.read a) ∧
    t.acc = s.acc ∧ t.dr = s.dr ∧ t.pc = s.pc ∧ t.zf = s.zf ∧
    t.cycles = s.cycles ∧ t.program = s.program ∧ t.cfg = s.cfg ∧
    (t.engine = s.engine ∨ ∃ k, t.engine = .faulted k)

/-! ### Rules about the whole machine -/

/-- Nothing a cycle does changes the program store or the parameters, a STR into the program range included (R63).
That they are fields of State which every step keeps is the model's choice (R5, R20, R32; log entries 2 and 3, DESIGN
CHOICE). -/
def Obligations.ProgramNeverChanges : Prop :=
  (∀ s t : State, step s = .next t → t.program = s.program ∧ t.cfg = s.cfg) ∧
  ∀ (s t : State) (a : Int), 0 ≤ a → a < (s.cfg.progSize : Int) → s.mem.wf → s.cfg.valMin ≤ s.acc →
    s.acc ≤ s.cfg.valMax → exec (.str a) s = .next t →
    t.mem.read a.toNat = .num s.acc ∧ t.program[a.toNat]? = s.program[a.toNat]?

/-- Only an ADD or a SUB changes ZF, and then ZF tells whether the new ACC is zero (R24). -/
def Obligations.OnlyArithmeticChangesZeroFlag : Prop :=
  ∀ s t : State, step s = .next t → t.zf ≠ s.zf →
    (fetch s = some .add ∨ fetch s = some .sub) ∧ t.zf = decide (t.acc = 0)

/-- Only an XCH changes DR, and then DR is the old ACC (R22). -/
def Obligations.OnlyExchangeChangesDataRegister : Prop :=
  ∀ s t : State, step s = .next t → t.dr ≠ s.dr → fetch s = some .xch ∧ t.dr = s.acc

/-- A cell changes only by the STR of its address, and then holds ACC (R57, R65). -/
def Obligations.OnlyStoreChangesACell : Prop :=
  ∀ (s t : State) (b : Nat), s.mem.wf → step s = .next t → t.mem.read b ≠ s.mem.read b →
    fetch s = some (.str b) ∧ t.mem.read b = .num s.acc

/-- SYMTAB and NALLOC change together, only in a DEC, by one entry at the next address; no entry is removed or changed
(R29). -/
def Obligations.SymbolTableOnlyGrows : Prop :=
  ∀ s t : State, step s = .next t →
    (t.symtab = s.symtab ∧ t.nalloc = s.nalloc) ∨
    ∃ n, fetch s = some (.dec n) ∧ n ∉ declaredNames s ∧
      t.symtab = s.symtab ++ [(n, s.cfg.progSize + s.nalloc)] ∧ t.nalloc = s.nalloc + 1

/-- A cycle emits at most one event: the report of a DEC or the signal of a HLT (R34; that the trace is kept is decision
D21 and log entry 4). -/
def Obligations.TraceGrowsByAtMostOneEvent : Prop :=
  ∀ s t : State, step s = .next t →
    t.trace = s.trace ∨
    (∃ n a, fetch s = some (.dec n) ∧ t.trace = s.trace ++ [.declared n a] ∧ (n, a) ∈ t.symtab) ∨
    (fetch s = some .hlt ∧ t.trace = s.trace ++ [.haltSignal])

/-- Which effect raises what, and that a raise of an effect has written nothing (R210, R219; the raise of LDA of a raw
line is decision D12). The premise is the invariant of R37. -/
def Obligations.EffectsRaiseByTheFaultTable : Prop :=
  ∀ (s t : State) (i : Instr) (k : FaultKind), Inv s → s.engine = .running → exec i s = .next t →
    t.engine = .faulted k →
    t = { s with engine := .faulted k } ∧
    ((k = .duplicateVariable ∧ ∃ n, i = .dec n ∧ n ∈ declaredNames s) ∨
     (k = .outOfDataMemory ∧ ∃ n, i = .dec n ∧ n ∉ declaredNames s ∧ s.nalloc = s.cfg.dataSize) ∨
     (k = .invalidAddress ∧ ∃ a, (i = .lda a ∨ i = .str a) ∧ (a < 0 ∨ (addrLimit s.cfg : Int) ≤ a)) ∨
     (k = .valueOutOfRange ∧
       ((∃ v, i = .ldi v ∧ ¬ ValueOk s.cfg v) ∨
        (∃ a p, i = .lda a ∧ AddressOk s.cfg a ∧ s.mem.read a.toNat = .line p) ∨
        (∃ a, i = .jmp a ∧ ¬ PcOk s.cfg a) ∨
        (∃ a, i = .jzs a ∧ s.zf = true ∧ ¬ PcOk s.cfg a))))

/-! ### Reset and load -/

/-- The values after reset (R38; all but DR, PC, NALLOC and ENGINE rest on decision D11) with the default parameters of
R5; the empty program is log entry 2 and the empty trace decision D21. Reset asked for on any machine gives the same
values and keeps PROGRAM and the parameters (R240; the extent of it is decision D23, log entry 21). -/
def Obligations.ResetLeavesTheSpecsValues : Prop :=
  (State.reset.acc = 0 ∧ State.reset.dr = 0 ∧ State.reset.pc = 0 ∧ State.reset.zf = false ∧
  (∀ a, State.reset.mem.read a = .num 0) ∧ State.reset.symtab = [] ∧ State.reset.nalloc = 0 ∧
  State.reset.cycles = 0 ∧ State.reset.engine = .running ∧ State.reset.trace = [] ∧ State.reset.program = [] ∧
  State.reset.cfg.progSize = 128 ∧ State.reset.cfg.dataSize = 128 ∧ State.reset.cfg.valMin = -32768 ∧
  State.reset.cfg.valMax = 32767 ∧ State.reset.cfg.pcMin = 0 ∧ State.reset.cfg.budget = 1000 ∧
  addrLimit State.reset.cfg = 256 ∧ dataBase State.reset.cfg = 128 ∧ pcMax State.reset.cfg = 127) ∧
  ∀ s : State,
    (hostReset s).acc = 0 ∧ (hostReset s).dr = 0 ∧ (hostReset s).pc = 0 ∧ (hostReset s).zf = false ∧
    (∀ a, (hostReset s).mem.read a = .num 0) ∧ (hostReset s).symtab = [] ∧ (hostReset s).nalloc = 0 ∧
    (hostReset s).cycles = 0 ∧ (hostReset s).engine = .running ∧ (hostReset s).trace = [] ∧
    (hostReset s).program = s.program ∧ (hostReset s).cfg = s.cfg

/-- The launch state (R241): reset followed by a successful load leaves the program, its raw lines in the first PLEN
cells, and everything else as reset left it. The program is, in order, the lines that hold a character which is no
separator, each with its own decoding (R66, R87). Lines or words that all decode and number at most PROG_SIZE are
accepted (R88), the empty program included. The same for text and for words (decisions D5, D32; the separators are log
entry 24). -/
def Obligations.LoadGivesTheLaunchState : Prop :=
  (∀ (s t : State) (lines : List Text), MayLoad s → loadLines lines s = .ok t →
    ∃ p, decodeLines lines = .ok p ∧ p.length ≤ s.cfg.progSize ∧
      p.map Prod.snd = lines.filter (fun l => !l.all isBlank) ∧
      (∀ e ∈ p, decodeLine e.2 = .ok (some e.1)) ∧
      t = { s with program := p.map Prod.fst, mem := t.mem } ∧
      (∀ k e, p[k]? = some e → t.mem.read k = .line (.line e.2)) ∧
      ∀ a, p.length ≤ a → t.mem.read a = .num 0) ∧
  (∀ (s t : State) (words : List Word), MayLoad s → loadWords words s = .ok t →
    t.program.length = words.length ∧ words.length ≤ s.cfg.progSize ∧
      t = { s with program := t.program, mem := t.mem } ∧
      (∀ k w, words[k]? = some w →
        t.mem.read k = .line (.word w) ∧ ∃ i, decodeWord w = .ok i ∧ t.program[k]? = some i) ∧
      ∀ a, words.length ≤ a → t.mem.read a = .num 0) ∧
  (∀ (s : State) (lines : List Text) (p : List (Instr × Text)), decodeLines lines = .ok p →
    p.length ≤ s.cfg.progSize → ∃ t, loadLines lines s = .ok t) ∧
  (∀ (s : State) (lines : List Text), (∀ l ∈ lines, ∃ o, decodeLine l = .ok o) →
    (lines.filter fun l => !l.all isBlank).length ≤ s.cfg.progSize → ∃ t, loadLines lines s = .ok t) ∧
  ∀ (s : State) (words : List Word), (∀ w ∈ words, ∃ i, decodeWord w = .ok i) →
    words.length ≤ s.cfg.progSize → ∃ t, loadWords words s = .ok t

/-- Loading is all or nothing (R88, R95): text with a line that does not decode is refused with the error of the first
such line, words with an invalid one with `UnknownOpcode`, and a program longer than PROG_SIZE, as lines or as words, with
`ProgramTooLong` (decisions D5, D10; log entry 25). -/
def Obligations.LoadRefusesTheWholeProgram : Prop :=
  (∀ (s : State) (before after : List Text) (l : Text) (e : LoadError),
    (∀ b ∈ before, ∃ o, decodeLine b = .ok o) → decodeLine l = .error e →
    loadLines (before ++ l :: after) s = .error e) ∧
  (∀ (s : State) (lines : List Text) (l : Text) (e : LoadError), l ∈ lines → decodeLine l = .error e →
    ∃ e', loadLines lines s = .error e') ∧
  (∀ (s : State) (lines : List Text), (∀ l ∈ lines, ∃ o, decodeLine l = .ok o) →
    s.cfg.progSize < (lines.filter fun l => !l.all isBlank).length → loadLines lines s = .error .programTooLong) ∧
  (∀ (s : State) (words : List Word) (w : Word), w ∈ words → (∀ i, decodeWord w ≠ .ok i) →
    loadWords words s = .error .unknownOpcode) ∧
  (∀ (s : State) (words : List Word), (∀ w ∈ words, ∃ i, decodeWord w = .ok i) →
    s.cfg.progSize < words.length → loadWords words s = .error .programTooLong)

/-! ### Invariants -/

/-- The invariant holds after reset. -/
def Obligations.ResetMeetsInvariant : Prop := Inv State.reset

/-- A successful load on a reset machine gives a state that meets the invariant, and no name is declared yet. -/
def Obligations.LoadMeetsInvariant : Prop :=
  ∀ (s t : State) (lines : List Text) (words : List Word), MayLoad s → ConfigOk s.cfg →
    (loadLines lines s = .ok t ∨ loadWords words s = .ok t) → Inv t ∧ NamesFromProgram t

/-- Every step from a state that meets the invariant of R37 gives a state that meets it. The clauses R37 (e), (f) are
derived in the spec, and the initial values are decision D11. -/
def Obligations.StepKeepsInvariant : Prop :=
  ∀ s t : State, Inv s → step s = .next t → Inv t

/-- Every step keeps it true that each declared name is one a DEC of the program declares. -/
def Obligations.StepKeepsNamesFromProgram : Prop :=
  ∀ s t : State, NamesFromProgram s → step s = .next t → NamesFromProgram t

/-- `OutOfDataMemory` cannot be raised where the invariants hold and the data range is no smaller than the program store
(R121, derived there). -/
def Obligations.OutOfDataMemoryIsUnreachable : Prop :=
  ∀ s t : State, Inv s → NamesFromProgram s → s.cfg.progSize ≤ s.cfg.dataSize → step s = .next t →
    t.engine = .faulted .outOfDataMemory → s.engine = .faulted .outOfDataMemory

/-! ### Runs -/

/-- `run` always ends in a terminal state, with at most BUDGET instructions executed (R168, derived there; R174).
`run` is the loop of R168 cut after BUDGET - CYCLES cycles, which is log entry 26 (DESIGN CHOICE). -/
def Obligations.RunAlwaysTerminates : Prop :=
  ∀ s : State, CyclesOk s → ∃ t, run s = .next t ∧ t.engine ≠ .running ∧ t.cycles ≤ s.cfg.budget

/-- Single stepping and running agree (R169): N steps are N cycles, and enough steps are a run. That a
step on a stopped engine changes nothing is decision D16 (log entry 18), and the cut of `run` is log entry 26 (DESIGN
CHOICE). -/
def Obligations.SteppingAndRunningAgree : Prop :=
  (∀ (n : Nat) (s : State), Host.Core.run core n s = runCycles n s) ∧
  ∀ (n : Nat) (s : State), CyclesOk s → s.cfg.budget - s.cycles ≤ n → Host.Core.run core n s = run s

/-! ### What no run can tell -/

/-- A program's names matter only up to renaming: an injective renaming of a machine commutes with a step, so the text
form and the word form of one program run alike (R7, R89, R93; decisions D1, D8). -/
def Obligations.RenamingCommutesWithStep : Prop :=
  ∀ (f : Name → Name), Function.Injective f → ∀ s t : State, step s = .next t →
    step (renameState f s) = .next (renameState f t)

/-- No rule looks inside a raw line: erasing the payloads of all Line cells commutes with a step (R28; decision D32). -/
def Obligations.LinePayloadsAreNeverRead : Prop :=
  ∀ s t : State, step s = .next t → step (eraseLines s) = .next (eraseLines t)

/-- The hardware widths of R39 hold every value of a machine that meets the invariant, whatever its parameters: the
registers, the counters and the numbers in cells are read back from their bits (decision D18). -/
def Obligations.HardwareWidthsLoseNothing : Prop :=
  ∀ s : State, Inv s →
    (hardwareView s).acc.toInt = s.acc ∧ (hardwareView s).dr.toInt = s.dr ∧ (hardwareView s).pc.toNat = s.pc ∧
    (hardwareView s).zf = s.zf ∧ (hardwareView s).nalloc.toNat = s.nalloc ∧
    (hardwareView s).cycles.toNat = s.cycles ∧
    ∀ (a : Nat) (v : Int), s.mem.read a = .num v → (hardwareCell s.cfg (s.mem.read a)).2.toInt = v

/-- The widths are 16, 7, 8 and 10 bits for the default parameters, and for all parameters a machine can have a width
holds the range exactly if it is no smaller: the widths are the least that hold the ranges (R39; two's complement is from
general knowledge there, log entry 29, PRESUMED; which parameters a machine can have is log entry 27). -/
def Obligations.HardwareWidthsAreLeast : Prop :=
  (valueBits standardConfig = 16 ∧ pcBits standardConfig = 7 ∧ nallocBits standardConfig = 8 ∧
    cyclesBits standardConfig = 10) ∧
  ∀ (c : Config) (n : Nat), ConfigOk c →
    ((∀ v, ValueOk c v → (BitVec.ofInt n v).toInt = v) ↔ valueBits c ≤ n) ∧
    ((∀ p : Nat, PcOk c p → (BitVec.ofNat n p).toNat = p) ↔ pcBits c ≤ n) ∧
    ((∀ k, k ≤ c.dataSize → (BitVec.ofNat n k).toNat = k) ↔ nallocBits c ≤ n) ∧
    ((∀ k, k ≤ c.budget → (BitVec.ofNat n k).toNat = k) ↔ cyclesBits c ≤ n)
end

