-- ==== Sys2Proof/Laws/Decode.lean ====
section
/-! SUPPORT. The small lemmas of the encoding: the fields of a word as numbers, a word put together from its fields, the
bytes of a word, and decimal numbers as text (30_encoding.md). -/

namespace Sys2Proof

/-! ### Words -/

theorem opcodeField_toNat (w : Word) : opcodeField w = w.toNat / 2 ^ 28 := by
  have := w.isLt
  simp [opcodeField, BitVec.extractLsb'_toNat, Nat.shiftRight_eq_div_pow]
  omega

theorem zeroField_toNat (w : Word) : zeroField w = w.toNat / 2 ^ 24 % 16 := by
  simp [zeroField, BitVec.extractLsb'_toNat, Nat.shiftRight_eq_div_pow]

theorem operandField_toNat (w : Word) : (operandField w).toNat = w.toNat % 2 ^ 24 := by
  simp [operandField, BitVec.extractLsb'_toNat]

/-- The table is indexed by its opcodes. -/
theorem rowOf_opcode : ∀ r ∈ opcodeRows, rowOf r.opcode = r := by decide

theorem rowOf_mem (op : Opcode) : rowOf op ∈ opcodeRows := by cases op <;> decide

theorem rowNumber_lt (op : Opcode) : (rowOf op).number < 16 := by cases op <;> decide

theorem opcodeOfNumber_rowOf (op : Opcode) : opcodeOfNumber (rowOf op).number = some op := by cases op <;> decide

theorem opcodeOfNumber_some {n : Nat} {op : Opcode} (h : opcodeOfNumber n = some op) : (rowOf op).number = n := by
  obtain ⟨r, hr, rfl⟩ := Option.map_eq_some_iff.1 h
  rw [rowOf_opcode r (List.mem_of_find?_eq_some hr)]
  simpa using List.find?_some hr

/-- A word put together from its fields, as a number (R90, R97). -/
theorem wordOf_toNat (op : Opcode) (f : Field) : (wordOf op f).toNat = (rowOf op).number * 2 ^ 28 + f.toNat := by
  have h := rowNumber_lt op
  have hf := f.isLt
  have e : (wordOf op f).toNat =
      (BitVec.ofNat 4 (rowOf op).number).toNat <<< (4 + 24) ||| ((0#4).toNat <<< 24 ||| f.toNat) := by
    unfold wordOf
    rw [← BitVec.toNat_append, ← BitVec.toNat_append]
  rw [e, BitVec.toNat_ofNat, Nat.mod_eq_of_lt h]
  simp only [BitVec.toNat_ofNat, Nat.zero_mod, Nat.zero_shiftLeft, Nat.zero_or]
  rw [← Nat.shiftLeft_add_eq_or_of_lt (by omega), Nat.shiftLeft_eq]

theorem opcodeField_wordOf (op : Opcode) (f : Field) : opcodeField (wordOf op f) = (rowOf op).number := by
  have := f.isLt
  rw [opcodeField_toNat, wordOf_toNat]
  omega

theorem zeroField_wordOf (op : Opcode) (f : Field) : zeroField (wordOf op f) = 0 := by
  have := f.isLt
  rw [zeroField_toNat, wordOf_toNat]
  omega

theorem operandField_wordOf (op : Opcode) (f : Field) : operandField (wordOf op f) = f := by
  have := f.isLt
  apply BitVec.eq_of_toNat_eq
  rw [operandField_toNat, wordOf_toNat]
  omega

/-- A word with zero bits 27:24 is put together from its opcode and operand field. -/
theorem wordOf_fields {w : Word} {op : Opcode} (h : opcodeField w = (rowOf op).number) (hz : zeroField w = 0) :
    wordOf op (operandField w) = w := by
  apply BitVec.eq_of_toNat_eq
  rw [opcodeField_toNat] at h
  rw [zeroField_toNat] at hz
  rw [wordOf_toNat, operandField_toNat, ← h]
  omega

/-- What the decoder gives for a word put together from its fields. -/
theorem decodeWord_wordOf (op : Opcode) (f : Field) :
    decodeWord (wordOf op f) = match wordInstr op f with
      | some i => .ok i
      | none => .error .unknownOpcode := by
  unfold decodeWord
  rw [opcodeField_wordOf, opcodeOfNumber_rowOf, zeroField_wordOf, operandField_wordOf]
  rfl

/-- A word that decodes is put together from an opcode and an operand field that select its instruction. -/
theorem decodeWord_ok {w : Word} {i : Instr} (h : decodeWord w = .ok i) :
    ∃ op f, w = wordOf op f ∧ wordInstr op f = some i := by
  unfold decodeWord at h
  split at h
  · cases h
  · rename_i op hop
    split at h
    · rename_i hz
      split at h
      · rename_i j hj
        cases h
        exact ⟨op, operandField w, (wordOf_fields (opcodeOfNumber_some hop).symm hz).symm, hj⟩
      · cases h
    · cases h

/-- The signed reading of the field of an operand that fits (R92). -/
theorem signedOperand_integerField {v : Int} (h : -8388608 ≤ v ∧ v ≤ 8388607) :
    signedOperand (integerField v) = v := by
  simp only [signedOperand, integerField, BitVec.toInt_ofInt]
  rw [Int.bmod_eq_of_le] <;> simp <;> omega

theorem signedOperand_range (f : Field) : -8388608 ≤ signedOperand f ∧ signedOperand f ≤ 8388607 := by
  have h1 := @BitVec.le_toInt 24 f
  have h2 := @BitVec.toInt_lt 24 f
  norm_num at h1 h2
  exact ⟨h1, by unfold signedOperand; omega⟩

theorem integerField_signedOperand (f : Field) : integerField (signedOperand f) = f := by
  simp [integerField, signedOperand]

/-! ### Bytes -/

/-- The four bytes of a word put together again (R100). -/
theorem bytesWord_wordBytes (w : Word) :
    bytesWord (w.extractLsb' 0 8) (w.extractLsb' 8 8) (w.extractLsb' 16 8) (w.extractLsb' 24 8) = w := by
  refine BitVec.eq_of_getLsbD_eq fun k hk => ?_
  simp only [bytesWord, BitVec.getLsbD_append, BitVec.getLsbD_extractLsb']
  rcases Nat.lt_or_ge k 8 with h | h
  · simp [h, show k < 16 by omega, show k < 24 by omega]
  rcases Nat.lt_or_ge k 16 with h2 | h2
  · simp [Nat.not_lt.2 h, h2, show k < 24 by omega, show k - 8 < 8 by omega, show 8 + (k - 8) = k by omega]
  rcases Nat.lt_or_ge k 24 with h3 | h3
  · simp [Nat.not_lt.2 h2, h3, show k - 16 < 8 by omega, show 16 + (k - 16) = k by omega]
  · simp [Nat.not_lt.2 h3, show k - 24 < 8 by omega, show 24 + (k - 24) = k by omega]

/-- The table's word decodes as the word it is. -/
theorem decodeTableWord_toNat (w : Word) (i : Instr) (h : decodeWord w = .ok i) : decodeTableWord 32 w.toNat = some i := by
  have hm : w.toNat % 2 ^ 32 = w.toNat := Nat.mod_eq_of_lt w.isLt
  unfold decodeTableWord
  rw [if_pos (by decide), hm, BitVec.ofNat_toNat, BitVec.setWidth_eq]
  simp only [wordBytes, decodeBytes, bytesWord_wordBytes, h]
  rfl

/-! ### Decimal text -/

theorem digitChar_toNat {n : Nat} (h : n < 10) : (digitChar n).toNat = 48 + n := by
  have : ∀ m : Fin 10, (digitChar m).toNat = 48 + m := by decide
  exact this ⟨n, h⟩

theorem isDigit_digitChar {n : Nat} (h : n < 10) : isDigit (digitChar n) = true := by
  simp [isDigit, digitChar_toNat h]
  omega

theorem digitValue_digitChar {n : Nat} (h : n < 10) : digitValue (digitChar n) = n := by
  simp [digitValue, digitChar_toNat h]

theorem digitsValue_append (ds : Text) (c : Char) :
    digitsValue (ds ++ [c]) = 10 * digitsValue ds + digitValue c := by
  simp [digitsValue]

/-- With enough fuel the digits of a number read back as the number, and are digits. -/
theorem decimalDigits_spec (fuel n : Nat) (h : n < fuel) :
    digitsValue (decimalDigits fuel n) = n ∧ isDigits (decimalDigits fuel n) = true := by
  induction fuel generalizing n with
  | zero => omega
  | succ fuel ih =>
    unfold decimalDigits
    split
    · rename_i hn
      simp [digitsValue, isDigits, digitValue_digitChar hn, isDigit_digitChar hn]
    · have hd := ih (n / 10) (by omega)
      have hm : n % 10 < 10 := by omega
      refine ⟨?_, ?_⟩
      · rw [digitsValue_append, hd.1, digitValue_digitChar hm]
        omega
      · have h2 := hd.2
        simp only [isDigits, Bool.and_eq_true] at h2
        simp [isDigits, isDigit_digitChar hm, h2.2]

theorem natText_spec (n : Nat) : digitsValue (natText n) = n ∧ isDigits (natText n) = true :=
  decimalDigits_spec (n + 1) n (Nat.lt_succ_self n)

/-- The decimal text of an integer is a numeric token and reads back as the integer. -/
theorem intText_spec (v : Int) : isNumeric (intText v) = true ∧ tokenValue (intText v) = v := by
  unfold intText
  obtain ⟨hv, hd⟩ := natText_spec v.natAbs
  split
  · exact ⟨hd, by simp only [tokenValue, hv]; omega⟩
  · have hne : ∀ ds, natText v.natAbs ≠ '-' :: ds := by
      intro ds h
      rw [h] at hd
      simp [isDigits, isDigit] at hd
    constructor
    · unfold isNumeric
      split
      · rename_i ds h
        exact absurd h (hne ds)
      · exact hd
    · unfold tokenValue
      split
      · rename_i ds h
        exact absurd h (hne ds)
      · rw [hv]
        omega

/-! ### Tokens -/

/-- Characters that are no separators are added to the token being read. -/
theorem tokensFrom_run (run t rest : Text) (h : t.all (fun c => !isBlank c) = true) :
    tokensFrom run (t ++ rest) = tokensFrom (t.reverse ++ run) rest := by
  induction t generalizing run with
  | nil => rfl
  | cons c cs ih =>
    simp only [List.all_cons, Bool.and_eq_true, Bool.not_eq_true'] at h
    rw [List.cons_append, tokensFrom, if_neg (by simp [h.1]), ih (c :: run) h.2]
    simp

/-- A token alone on a line. -/
theorem tokens_single {t : Text} (hne : t ≠ []) (h : t.all (fun c => !isBlank c) = true) : tokens t = [t] := by
  have := tokensFrom_run [] t [] h
  simp only [List.append_nil] at this
  rw [tokens, this, tokensFrom]
  simp [hne]

/-- Two tokens with one space between them. -/
theorem tokens_pair {t u : Text} (ht : t ≠ []) (hu : u ≠ []) (h : t.all (fun c => !isBlank c) = true)
    (h' : u.all (fun c => !isBlank c) = true) : tokens (t ++ ' ' :: u) = [t, u] := by
  have h1 := tokensFrom_run [] t (' ' :: u) h
  have h2 : tokensFrom [] u = [u] := tokens_single hu h'
  rw [tokens, h1, tokensFrom, if_pos (by decide)]
  simp [ht, h2]

theorem isBlank_of_isDigit {c : Char} (h : isDigit c = true) : isBlank c = false := by
  simp [isDigit] at h
  simp [isBlank]
  omega

theorem isDigits_noBlank {t : Text} (h : isDigits t = true) : t ≠ [] ∧ t.all (fun c => !isBlank c) = true := by
  simp only [isDigits, Bool.and_eq_true, Bool.not_eq_true', List.isEmpty_eq_false_iff, List.all_eq_true] at h
  exact ⟨h.1, List.all_eq_true.2 fun c hc => by simp [isBlank_of_isDigit (h.2 c hc)]⟩

/-- A numeric token is a token: not empty and without separators. -/
theorem isNumeric_noBlank {t : Text} (h : isNumeric t = true) : t ≠ [] ∧ t.all (fun c => !isBlank c) = true := by
  unfold isNumeric at h
  split at h
  · have := (isDigits_noBlank h).2
    exact ⟨by simp, by simp [this, show isBlank '-' = false from by decide]⟩
  · exact isDigits_noBlank h

/-- Tokens are not empty and hold no separators. -/
theorem tokensFrom_noBlank {run line t : Text} (hr : run.all (fun c => !isBlank c) = true)
    (h : t ∈ tokensFrom run line) : t ≠ [] ∧ t.all (fun c => !isBlank c) = true := by
  induction line generalizing run with
  | nil =>
    unfold tokensFrom at h
    split at h
    · cases h
    · rename_i hne
      rw [List.mem_singleton.1 h]
      exact ⟨by simpa using hne, by rw [List.all_reverse]; exact hr⟩
  | cons c cs ih =>
    unfold tokensFrom at h
    split at h
    · split at h
      · exact ih (run := []) rfl h
      · rename_i hne
        rcases List.mem_cons.1 h with h | h
        · rw [h]
          exact ⟨by simpa using hne, by rw [List.all_reverse]; exact hr⟩
        · exact ih (run := []) rfl h
    · rename_i hb
      refine ih (run := c :: run) ?_ h
      simp only [List.all_cons, hr, Bool.and_true]
      simpa using hb

/-- A line of separators only has no token. -/
theorem tokens_blank {line : Text} (h : line.all isBlank = true) : tokens line = [] := by
  unfold tokens
  induction line with
  | nil => rfl
  | cons c cs ih =>
    simp only [List.all_cons, Bool.and_eq_true] at h
    rw [tokensFrom, if_pos h.1, if_pos rfl]
    exact ih h.2

end Sys2Proof
end

