-- ==== Sys2Proof/Laws/Memory.lean ====
section
/-! SUPPORT. The laws of the cell memory: a read after a write, other cells untouched, and the canonical form kept
(20_memory.md rules R52, R53, R60). -/

namespace Sys2Proof.Machine

@[simp] theorem Memory.read_nil (a : Nat) : Memory.read [] a = blankCell := rfl

/-- An address below every listed one reads as blank: why a write that removes an entry of a sorted list uncovers
nothing. -/
theorem Memory.read_below {m : Memory} {a : Nat} (h : ∀ e ∈ m, a < e.1) : m.read a = blankCell := by
  induction m with
  | nil => rfl
  | cons e m ih =>
    have h1 : a < e.1 := h e (by simp)
    rw [Memory.read, if_neg (by omega)]
    exact ih fun x hx => h x (by simp [hx])

/-- In a sorted list the entries after the first lie above it. -/
theorem Memory.sorted_tail {b : Nat} {d : Cell} {m : Memory}
    (h : (((b, d) :: m : Memory).map Prod.fst).Pairwise (· < ·)) :
    (∀ e ∈ m, b < e.1) ∧ (m.map Prod.fst).Pairwise (· < ·) := by
  rw [List.map_cons, List.pairwise_cons] at h
  exact ⟨fun e he => h.1 _ (List.mem_map_of_mem he), h.2⟩

/-- A read after a write to the same address gives the cell written. -/
theorem Memory.read_write_same {m : Memory} (a : Nat) (c : Cell)
    (h : (m.map Prod.fst).Pairwise (· < ·)) : (m.write a c).read a = c := by
  induction m with
  | nil => unfold Memory.write; split <;> simp_all [Memory.read]
  | cons e m ih =>
    obtain ⟨b, d⟩ := e
    obtain ⟨above, sorted⟩ := Memory.sorted_tail h
    unfold Memory.write
    split
    · split
      · rename_i hab hc
        subst hc
        exact Memory.read_below fun x hx => by
          rcases List.mem_cons.1 hx with rfl | hx
          · exact hab
          · exact Nat.lt_trans hab (above x hx)
      · simp [Memory.read]
    · split
      · rename_i hab
        subst hab
        split
        · rename_i hc
          subst hc
          exact Memory.read_below above
        · simp [Memory.read]
      · rename_i hne
        rw [Memory.read, if_neg hne]
        exact ih sorted

/-- A write leaves every other address alone. -/
theorem Memory.read_write_other (m : Memory) {a b : Nat} (c : Cell) (hne : b ≠ a) :
    (m.write a c).read b = m.read b := by
  induction m with
  | nil => unfold Memory.write; split <;> simp [Memory.read, hne]
  | cons e m ih =>
    obtain ⟨x, d⟩ := e
    unfold Memory.write
    split
    · split <;> simp [Memory.read, hne]
    · split
      · rename_i hax
        subst hax
        split <;> simp [Memory.read, hne]
      · simp only [Memory.read, ih]

/-- What a write can list: the entry written, or an entry that was there. -/
theorem Memory.mem_write {m : Memory} {a : Nat} {c : Cell} {e : Nat × Cell} (h : e ∈ m.write a c) :
    (e = (a, c) ∧ c ≠ blankCell) ∨ e ∈ m := by
  induction m with
  | nil =>
    unfold Memory.write at h
    split at h
    · cases h
    · rename_i hc
      exact .inl ⟨by simpa using h, hc⟩
  | cons x m ih =>
    obtain ⟨b, d⟩ := x
    unfold Memory.write at h
    split at h
    · split at h
      · exact .inr h
      · rename_i hc
        rcases List.mem_cons.1 h with h | h
        · exact .inl ⟨h, hc⟩
        · exact .inr h
    · split at h
      · split at h
        · exact .inr (List.mem_cons_of_mem _ h)
        · rename_i hc
          rcases List.mem_cons.1 h with h | h
          · exact .inl ⟨h, hc⟩
          · exact .inr (List.mem_cons_of_mem _ h)
      · rcases List.mem_cons.1 h with h | h
        · exact .inr (by simp [h])
        · rcases ih h with h | h
          · exact .inl h
          · exact .inr (List.mem_cons_of_mem _ h)

/-- A write keeps the canonical form. -/
theorem Memory.write_wf {m : Memory} (a : Nat) (c : Cell) (h : m.wf) : (m.write a c).wf := by
  refine ⟨?_, fun e he => ?_⟩
  · have h1 := h.1
    clear h
    induction m with
    | nil => unfold Memory.write; split <;> simp
    | cons x m ih =>
      obtain ⟨b, d⟩ := x
      obtain ⟨above, sorted⟩ := Memory.sorted_tail h1
      unfold Memory.write
      split
      · rename_i hab
        split
        · exact h1
        · rw [List.map_cons, List.pairwise_cons]
          refine ⟨fun y hy => ?_, h1⟩
          obtain ⟨e, he, rfl⟩ := List.mem_map.1 hy
          rcases List.mem_cons.1 he with rfl | he
          · exact hab
          · exact Nat.lt_trans hab (above e he)
      · split
        · rename_i hab
          subst hab
          split
          · exact sorted
          · rw [List.map_cons, List.pairwise_cons]
            exact ⟨fun y hy => by obtain ⟨e, he, rfl⟩ := List.mem_map.1 hy; exact above e he, sorted⟩
        · rw [List.map_cons, List.pairwise_cons]
          refine ⟨fun y hy => ?_, ih sorted⟩
          obtain ⟨e, he, rfl⟩ := List.mem_map.1 hy
          rcases Memory.mem_write he with ⟨rfl, -⟩ | he
          · simp only; omega
          · exact above e he
  · rcases Memory.mem_write he with ⟨rfl, hc⟩ | he
    · exact hc
    · exact h.2 e he

/-- A cell read from a memory is the blank cell or is listed at that address. -/
theorem Memory.read_cases (m : Memory) (a : Nat) : m.read a = blankCell ∨ (a, m.read a) ∈ m := by
  induction m with
  | nil => exact .inl rfl
  | cons e m ih =>
    obtain ⟨b, d⟩ := e
    unfold Memory.read
    split
    · rename_i hab
      subst hab
      exact .inr (by simp)
    · rcases ih with h | h
      · exact .inl h
      · exact .inr (List.mem_cons_of_mem _ h)

end Sys2Proof.Machine
end

