-- ==== Sys2Proof/Laws/Entry.lean ====
section
/-! SUPPORT. What the pieces of a load can answer, and when a width holds a number (rules R66, R87, R88, R39). -/

namespace Sys2Proof

/-- Reading a token that has begun gives at least that token. -/
theorem tokensFrom_ne_nil {run : Text} (h : run ≠ []) (l : Text) : tokensFrom run l ≠ [] := by
  induction l generalizing run with
  | nil => simp [tokensFrom, h]
  | cons c cs ih =>
    rw [tokensFrom]
    split
    · simp
    · exact ih (List.cons_ne_nil c run)

/-- A line has no token exactly when it holds separators only (R82, R87). -/
theorem tokens_eq_nil (l : Text) : tokens l = [] ↔ l.all isBlank = true := by
  unfold tokens
  induction l with
  | nil => simp [tokensFrom]
  | cons c cs ih =>
    rw [tokensFrom]
    cases h : isBlank c
    · simp [h, tokensFrom_ne_nil]
    · simpa [h] using ih

/-- What `decodeLine` can answer with no error: nothing, for a line of separators, or an instruction. -/
theorem decodeLine_cases {l : Text} {o : Option Instr} (h : decodeLine l = .ok o) :
    (l.all isBlank = true ∧ o = none) ∨ (l.all isBlank = false ∧ ∃ i, o = some i) := by
  rw [← Bool.not_eq_true, ← tokens_eq_nil]
  unfold decodeLine at h
  split at h
  · rename_i ht
    cases h
    exact .inl ⟨ht, rfl⟩
  · rename_i t ops ht
    split at h
    · cases h
    · rename_i op _
      cases hi : lineInstr op ops with
      | error e => rw [hi] at h; cases h
      | ok i => rw [hi] at h; cases h; exact .inr ⟨by simp [ht], i, rfl⟩

end Sys2Proof

namespace Sys2Proof.Machine

/-- A program is installed if it fits and refused if it does not (R66, R88). -/
theorem install_cases (p : List (Instr × Payload)) (s : State) :
    (s.cfg.progSize < p.length ∧ install p s = .error .programTooLong) ∨
    (p.length ≤ s.cfg.progSize ∧ install p s =
      .ok { s with program := p.map Prod.fst, mem := writeLines 0 (p.map Prod.snd) s.mem }) := by
  unfold install
  by_cases h : s.cfg.progSize < p.length
  · exact .inl ⟨h, if_pos h⟩
  · exact .inr ⟨by omega, if_neg h⟩

/-- Writing the Line cells keeps the canonical form. -/
theorem writeLines_wf (slot : Nat) (ts : List Payload) {m : Memory} (h : m.wf) : (writeLines slot ts m).wf := by
  induction ts generalizing slot m with
  | nil => exact h
  | cons t ts ih => exact ih (slot + 1) (Memory.write_wf slot (.line t) h)

/-- What an address reads as after the Line cells are written: the line of its slot, or what it read as before. -/
theorem read_writeLines (slot : Nat) (ts : List Payload) {m : Memory} (h : m.wf) (a : Nat) :
    (writeLines slot ts m).read a =
      if a < slot then m.read a else match ts[a - slot]? with
        | some t => .line t
        | none => m.read a := by
  induction ts generalizing slot m with
  | nil => simp [writeLines]
  | cons t ts ih =>
    rw [writeLines, ih (slot + 1) (Memory.write_wf slot (.line t) h)]
    rcases Nat.lt_trichotomy a slot with hlt | rfl | hgt
    · rw [if_pos (by omega), if_pos hlt, Memory.read_write_other m _ (by omega)]
    · rw [if_pos (by omega), if_neg (by omega), Nat.sub_self, Memory.read_write_same a _ h.1]
      rfl
    · rw [if_neg (by omega), if_neg (by omega), Memory.read_write_other m _ (by omega),
        show a - slot = (a - (slot + 1)) + 1 by omega, List.getElem?_cons_succ]

/-! ### Widths -/

/-- An unsigned width holds a number exactly if it is no smaller than the bits of the number. -/
theorem unsignedBits_le_iff (n k : Nat) : unsignedBits n ≤ k ↔ n < 2 ^ k := by
  unfold unsignedBits
  split
  · rename_i h
    simp [h]
  · rename_i h
    rw [← Nat.log2_lt h]
    omega

/-- A sign bit and `k` more hold a number exactly if `k` is no smaller than its bits below the sign. -/
theorem magnitudeBits_le_iff (v : Int) (k : Nat) : magnitudeBits v ≤ k ↔ -(2 : Int) ^ k ≤ v ∧ v < 2 ^ k := by
  have hp : (0 : Int) < 2 ^ k := by positivity
  unfold magnitudeBits
  split <;> rw [unsignedBits_le_iff] <;> zify <;> omega

end Sys2Proof.Machine
end

