-- ==== Sys2Proof/Laws/State.lean ====
section
/-! SUPPORT. One lemma per field of State per named update, true by definition, so that no later proof unfolds a
record update. -/

namespace Sys2Proof.Machine

@[simp] theorem raise_acc (k : FaultKind) (s : State) : (raise k s).acc = s.acc := rfl
@[simp] theorem raise_dr (k : FaultKind) (s : State) : (raise k s).dr = s.dr := rfl
@[simp] theorem raise_pc (k : FaultKind) (s : State) : (raise k s).pc = s.pc := rfl
@[simp] theorem raise_zf (k : FaultKind) (s : State) : (raise k s).zf = s.zf := rfl
@[simp] theorem raise_mem (k : FaultKind) (s : State) : (raise k s).mem = s.mem := rfl
@[simp] theorem raise_symtab (k : FaultKind) (s : State) : (raise k s).symtab = s.symtab := rfl
@[simp] theorem raise_nalloc (k : FaultKind) (s : State) : (raise k s).nalloc = s.nalloc := rfl
@[simp] theorem raise_cycles (k : FaultKind) (s : State) : (raise k s).cycles = s.cycles := rfl
@[simp] theorem raise_engine (k : FaultKind) (s : State) : (raise k s).engine = .faulted k := rfl
@[simp] theorem raise_program (k : FaultKind) (s : State) : (raise k s).program = s.program := rfl
@[simp] theorem raise_cfg (k : FaultKind) (s : State) : (raise k s).cfg = s.cfg := rfl
@[simp] theorem raise_trace (k : FaultKind) (s : State) : (raise k s).trace = s.trace := rfl

@[simp] theorem emit_acc (e : Event) (s : State) : (emit e s).acc = s.acc := rfl
@[simp] theorem emit_dr (e : Event) (s : State) : (emit e s).dr = s.dr := rfl
@[simp] theorem emit_pc (e : Event) (s : State) : (emit e s).pc = s.pc := rfl
@[simp] theorem emit_zf (e : Event) (s : State) : (emit e s).zf = s.zf := rfl
@[simp] theorem emit_mem (e : Event) (s : State) : (emit e s).mem = s.mem := rfl
@[simp] theorem emit_symtab (e : Event) (s : State) : (emit e s).symtab = s.symtab := rfl
@[simp] theorem emit_nalloc (e : Event) (s : State) : (emit e s).nalloc = s.nalloc := rfl
@[simp] theorem emit_cycles (e : Event) (s : State) : (emit e s).cycles = s.cycles := rfl
@[simp] theorem emit_engine (e : Event) (s : State) : (emit e s).engine = s.engine := rfl
@[simp] theorem emit_program (e : Event) (s : State) : (emit e s).program = s.program := rfl
@[simp] theorem emit_cfg (e : Event) (s : State) : (emit e s).cfg = s.cfg := rfl
@[simp] theorem emit_trace (e : Event) (s : State) : (emit e s).trace = s.trace ++ [e] := rfl

@[simp] theorem halt_acc (h : HaltReason) (s : State) : (halt h s).acc = s.acc := rfl
@[simp] theorem halt_dr (h : HaltReason) (s : State) : (halt h s).dr = s.dr := rfl
@[simp] theorem halt_pc (h : HaltReason) (s : State) : (halt h s).pc = s.pc := rfl
@[simp] theorem halt_zf (h : HaltReason) (s : State) : (halt h s).zf = s.zf := rfl
@[simp] theorem halt_mem (h : HaltReason) (s : State) : (halt h s).mem = s.mem := rfl
@[simp] theorem halt_symtab (h : HaltReason) (s : State) : (halt h s).symtab = s.symtab := rfl
@[simp] theorem halt_nalloc (h : HaltReason) (s : State) : (halt h s).nalloc = s.nalloc := rfl
@[simp] theorem halt_cycles (h : HaltReason) (s : State) : (halt h s).cycles = s.cycles := rfl
@[simp] theorem halt_engine (h : HaltReason) (s : State) : (halt h s).engine = .halted h := rfl
@[simp] theorem halt_program (h : HaltReason) (s : State) : (halt h s).program = s.program := rfl
@[simp] theorem halt_cfg (h : HaltReason) (s : State) : (halt h s).cfg = s.cfg := rfl
@[simp] theorem halt_trace (h : HaltReason) (s : State) : (halt h s).trace = s.trace := rfl

@[simp] theorem countCycle_acc (s : State) : (countCycle s).acc = s.acc := rfl
@[simp] theorem countCycle_dr (s : State) : (countCycle s).dr = s.dr := rfl
@[simp] theorem countCycle_pc (s : State) : (countCycle s).pc = s.pc := rfl
@[simp] theorem countCycle_zf (s : State) : (countCycle s).zf = s.zf := rfl
@[simp] theorem countCycle_mem (s : State) : (countCycle s).mem = s.mem := rfl
@[simp] theorem countCycle_symtab (s : State) : (countCycle s).symtab = s.symtab := rfl
@[simp] theorem countCycle_nalloc (s : State) : (countCycle s).nalloc = s.nalloc := rfl
@[simp] theorem countCycle_cycles (s : State) : (countCycle s).cycles = s.cycles + 1 := rfl
@[simp] theorem countCycle_engine (s : State) : (countCycle s).engine = s.engine := rfl
@[simp] theorem countCycle_program (s : State) : (countCycle s).program = s.program := rfl
@[simp] theorem countCycle_cfg (s : State) : (countCycle s).cfg = s.cfg := rfl
@[simp] theorem countCycle_trace (s : State) : (countCycle s).trace = s.trace := rfl

@[simp] theorem cellPut_acc (a : Nat) (c : Cell) (s : State) : (cellPut a c s).acc = s.acc := rfl
@[simp] theorem cellPut_dr (a : Nat) (c : Cell) (s : State) : (cellPut a c s).dr = s.dr := rfl
@[simp] theorem cellPut_pc (a : Nat) (c : Cell) (s : State) : (cellPut a c s).pc = s.pc := rfl
@[simp] theorem cellPut_zf (a : Nat) (c : Cell) (s : State) : (cellPut a c s).zf = s.zf := rfl
@[simp] theorem cellPut_mem (a : Nat) (c : Cell) (s : State) : (cellPut a c s).mem = s.mem.write a c := rfl
@[simp] theorem cellPut_symtab (a : Nat) (c : Cell) (s : State) : (cellPut a c s).symtab = s.symtab := rfl
@[simp] theorem cellPut_nalloc (a : Nat) (c : Cell) (s : State) : (cellPut a c s).nalloc = s.nalloc := rfl
@[simp] theorem cellPut_cycles (a : Nat) (c : Cell) (s : State) : (cellPut a c s).cycles = s.cycles := rfl
@[simp] theorem cellPut_engine (a : Nat) (c : Cell) (s : State) : (cellPut a c s).engine = s.engine := rfl
@[simp] theorem cellPut_program (a : Nat) (c : Cell) (s : State) : (cellPut a c s).program = s.program := rfl
@[simp] theorem cellPut_cfg (a : Nat) (c : Cell) (s : State) : (cellPut a c s).cfg = s.cfg := rfl
@[simp] theorem cellPut_trace (a : Nat) (c : Cell) (s : State) : (cellPut a c s).trace = s.trace := rfl

@[simp] theorem symbolPut_acc (n : Name) (a : Nat) (s : State) : (symbolPut n a s).acc = s.acc := rfl
@[simp] theorem symbolPut_dr (n : Name) (a : Nat) (s : State) : (symbolPut n a s).dr = s.dr := rfl
@[simp] theorem symbolPut_pc (n : Name) (a : Nat) (s : State) : (symbolPut n a s).pc = s.pc := rfl
@[simp] theorem symbolPut_zf (n : Name) (a : Nat) (s : State) : (symbolPut n a s).zf = s.zf := rfl
@[simp] theorem symbolPut_mem (n : Name) (a : Nat) (s : State) : (symbolPut n a s).mem = s.mem := rfl
@[simp] theorem symbolPut_symtab (n : Name) (a : Nat) (s : State) : (symbolPut n a s).symtab = s.symtab ++ [(n, a)] := rfl
@[simp] theorem symbolPut_nalloc (n : Name) (a : Nat) (s : State) : (symbolPut n a s).nalloc = s.nalloc + 1 := rfl
@[simp] theorem symbolPut_cycles (n : Name) (a : Nat) (s : State) : (symbolPut n a s).cycles = s.cycles := rfl
@[simp] theorem symbolPut_engine (n : Name) (a : Nat) (s : State) : (symbolPut n a s).engine = s.engine := rfl
@[simp] theorem symbolPut_program (n : Name) (a : Nat) (s : State) : (symbolPut n a s).program = s.program := rfl
@[simp] theorem symbolPut_cfg (n : Name) (a : Nat) (s : State) : (symbolPut n a s).cfg = s.cfg := rfl
@[simp] theorem symbolPut_trace (n : Name) (a : Nat) (s : State) : (symbolPut n a s).trace = s.trace := rfl

@[simp] theorem regPut_acc_acc (v : Int) (s : State) : (regPut (.acc v) s).acc = v := rfl
@[simp] theorem regPut_acc_dr (v : Int) (s : State) : (regPut (.acc v) s).dr = s.dr := rfl
@[simp] theorem regPut_acc_pc (v : Int) (s : State) : (regPut (.acc v) s).pc = s.pc := rfl
@[simp] theorem regPut_acc_zf (v : Int) (s : State) : (regPut (.acc v) s).zf = s.zf := rfl
@[simp] theorem regPut_acc_mem (v : Int) (s : State) : (regPut (.acc v) s).mem = s.mem := rfl
@[simp] theorem regPut_acc_symtab (v : Int) (s : State) : (regPut (.acc v) s).symtab = s.symtab := rfl
@[simp] theorem regPut_acc_nalloc (v : Int) (s : State) : (regPut (.acc v) s).nalloc = s.nalloc := rfl
@[simp] theorem regPut_acc_cycles (v : Int) (s : State) : (regPut (.acc v) s).cycles = s.cycles := rfl
@[simp] theorem regPut_acc_engine (v : Int) (s : State) : (regPut (.acc v) s).engine = s.engine := rfl
@[simp] theorem regPut_acc_program (v : Int) (s : State) : (regPut (.acc v) s).program = s.program := rfl
@[simp] theorem regPut_acc_cfg (v : Int) (s : State) : (regPut (.acc v) s).cfg = s.cfg := rfl
@[simp] theorem regPut_acc_trace (v : Int) (s : State) : (regPut (.acc v) s).trace = s.trace := rfl

@[simp] theorem regPut_dr_acc (v : Int) (s : State) : (regPut (.dr v) s).acc = s.acc := rfl
@[simp] theorem regPut_dr_dr (v : Int) (s : State) : (regPut (.dr v) s).dr = v := rfl
@[simp] theorem regPut_dr_pc (v : Int) (s : State) : (regPut (.dr v) s).pc = s.pc := rfl
@[simp] theorem regPut_dr_zf (v : Int) (s : State) : (regPut (.dr v) s).zf = s.zf := rfl
@[simp] theorem regPut_dr_mem (v : Int) (s : State) : (regPut (.dr v) s).mem = s.mem := rfl
@[simp] theorem regPut_dr_symtab (v : Int) (s : State) : (regPut (.dr v) s).symtab = s.symtab := rfl
@[simp] theorem regPut_dr_nalloc (v : Int) (s : State) : (regPut (.dr v) s).nalloc = s.nalloc := rfl
@[simp] theorem regPut_dr_cycles (v : Int) (s : State) : (regPut (.dr v) s).cycles = s.cycles := rfl
@[simp] theorem regPut_dr_engine (v : Int) (s : State) : (regPut (.dr v) s).engine = s.engine := rfl
@[simp] theorem regPut_dr_program (v : Int) (s : State) : (regPut (.dr v) s).program = s.program := rfl
@[simp] theorem regPut_dr_cfg (v : Int) (s : State) : (regPut (.dr v) s).cfg = s.cfg := rfl
@[simp] theorem regPut_dr_trace (v : Int) (s : State) : (regPut (.dr v) s).trace = s.trace := rfl

@[simp] theorem regPut_pc_acc (v : Int) (s : State) : (regPut (.pc v) s).acc = s.acc := rfl
@[simp] theorem regPut_pc_dr (v : Int) (s : State) : (regPut (.pc v) s).dr = s.dr := rfl
@[simp] theorem regPut_pc_pc (v : Int) (s : State) : (regPut (.pc v) s).pc = v.toNat := rfl
@[simp] theorem regPut_pc_zf (v : Int) (s : State) : (regPut (.pc v) s).zf = s.zf := rfl
@[simp] theorem regPut_pc_mem (v : Int) (s : State) : (regPut (.pc v) s).mem = s.mem := rfl
@[simp] theorem regPut_pc_symtab (v : Int) (s : State) : (regPut (.pc v) s).symtab = s.symtab := rfl
@[simp] theorem regPut_pc_nalloc (v : Int) (s : State) : (regPut (.pc v) s).nalloc = s.nalloc := rfl
@[simp] theorem regPut_pc_cycles (v : Int) (s : State) : (regPut (.pc v) s).cycles = s.cycles := rfl
@[simp] theorem regPut_pc_engine (v : Int) (s : State) : (regPut (.pc v) s).engine = s.engine := rfl
@[simp] theorem regPut_pc_program (v : Int) (s : State) : (regPut (.pc v) s).program = s.program := rfl
@[simp] theorem regPut_pc_cfg (v : Int) (s : State) : (regPut (.pc v) s).cfg = s.cfg := rfl
@[simp] theorem regPut_pc_trace (v : Int) (s : State) : (regPut (.pc v) s).trace = s.trace := rfl

@[simp] theorem regPut_zf_acc (b : Bool) (s : State) : (regPut (.zf b) s).acc = s.acc := rfl
@[simp] theorem regPut_zf_dr (b : Bool) (s : State) : (regPut (.zf b) s).dr = s.dr := rfl
@[simp] theorem regPut_zf_pc (b : Bool) (s : State) : (regPut (.zf b) s).pc = s.pc := rfl
@[simp] theorem regPut_zf_zf (b : Bool) (s : State) : (regPut (.zf b) s).zf = b := rfl
@[simp] theorem regPut_zf_mem (b : Bool) (s : State) : (regPut (.zf b) s).mem = s.mem := rfl
@[simp] theorem regPut_zf_symtab (b : Bool) (s : State) : (regPut (.zf b) s).symtab = s.symtab := rfl
@[simp] theorem regPut_zf_nalloc (b : Bool) (s : State) : (regPut (.zf b) s).nalloc = s.nalloc := rfl
@[simp] theorem regPut_zf_cycles (b : Bool) (s : State) : (regPut (.zf b) s).cycles = s.cycles := rfl
@[simp] theorem regPut_zf_engine (b : Bool) (s : State) : (regPut (.zf b) s).engine = s.engine := rfl
@[simp] theorem regPut_zf_program (b : Bool) (s : State) : (regPut (.zf b) s).program = s.program := rfl
@[simp] theorem regPut_zf_cfg (b : Bool) (s : State) : (regPut (.zf b) s).cfg = s.cfg := rfl
@[simp] theorem regPut_zf_trace (b : Bool) (s : State) : (regPut (.zf b) s).trace = s.trace := rfl

end Sys2Proof.Machine
end

