-- ==== Sys2Proof/Laws/Ops.lean ====
section
/-! SUPPORT. One lemma per shared operation that says once everything it can do, for later proofs to cite instead of
unfolding it. -/

namespace Sys2Proof.Machine

/-- A register write either stores a legal value or raises `ValueOutOfRange` (10_state.md rule R25). -/
theorem regSet_cases (r : RegValue) (s : State) :
    (regLegal s.cfg r = true ∧ regSet r s = regPut r s) ∨
    (regLegal s.cfg r = false ∧ regSet r s = raise .valueOutOfRange s) := by
  unfold regSet
  cases h : regLegal s.cfg r <;> simp

theorem regSet_of_legal {r : RegValue} {s : State} (h : regLegal s.cfg r = true) : regSet r s = regPut r s := by
  simp [regSet, h]

theorem regSet_of_illegal {r : RegValue} {s : State} (h : regLegal s.cfg r = false) :
    regSet r s = raise .valueOutOfRange s := by
  simp [regSet, h]

@[simp] theorem regLegal_acc (c : Config) (v : Int) : regLegal c (.acc v) = decide (ValueOk c v) := rfl
@[simp] theorem regLegal_dr (c : Config) (v : Int) : regLegal c (.dr v) = decide (ValueOk c v) := rfl
@[simp] theorem regLegal_pc (c : Config) (v : Int) : regLegal c (.pc v) = decide (PcOk c v) := rfl
@[simp] theorem regLegal_zf (c : Config) (b : Bool) : regLegal c (.zf b) = true := rfl

@[simp] theorem immediate_eq (v : Int) : immediate v = v := rfl
@[simp] theorem effectiveAddress_eq (a : Int) : effectiveAddress a = a := rfl
@[simp] theorem jumpSlot_eq (a : Int) : jumpSlot a = a := rfl

theorem memRead_of_ok {a : Int} {s : State} (h : AddressOk s.cfg a) :
    memRead a s = .ok (s.mem.read a.toNat) := if_pos h

theorem memRead_of_invalid {a : Int} {s : State} (h : ¬ AddressOk s.cfg a) :
    memRead a s = .error .invalidAddress := if_neg h

/-- A store raises on its value, raises on its address, or writes one cell (20_memory.md rule R53). -/
theorem memWrite_cases (a v : Int) (s : State) :
    (¬ ValueOk s.cfg v ∧ memWrite a v s = raise .valueOutOfRange s) ∨
    (ValueOk s.cfg v ∧ ¬ AddressOk s.cfg a ∧ memWrite a v s = raise .invalidAddress s) ∨
    (ValueOk s.cfg v ∧ AddressOk s.cfg a ∧ memWrite a v s = cellPut a.toNat (.num v) s) := by
  unfold memWrite
  by_cases h : ValueOk s.cfg v
  · by_cases h' : AddressOk s.cfg a
    · exact .inr (.inr ⟨h, h', by rw [if_pos h, if_pos h']⟩)
    · exact .inr (.inl ⟨h, h', by rw [if_pos h, if_neg h']⟩)
  · exact .inl ⟨h, if_neg h⟩

/-- An allocation finds a duplicate, finds no room, or records the next address (20_memory.md rule R54). -/
theorem allocate_cases (n : Name) (s : State) :
    (n ∈ declaredNames s ∧ allocate n s = .error .duplicateVariable) ∨
    (n ∉ declaredNames s ∧ s.cfg.dataSize ≤ s.nalloc ∧ allocate n s = .error .outOfDataMemory) ∨
    (n ∉ declaredNames s ∧ s.nalloc < s.cfg.dataSize ∧
      allocate n s = .ok (dataBase s.cfg + s.nalloc, symbolPut n (dataBase s.cfg + s.nalloc) s)) := by
  unfold allocate
  by_cases h : n ∈ declaredNames s
  · exact .inl ⟨h, if_pos h⟩
  · by_cases h' : s.cfg.dataSize ≤ s.nalloc
    · exact .inr (.inl ⟨h, h', by rw [if_neg h, if_pos h']⟩)
    · exact .inr (.inr ⟨h, Nat.lt_of_not_le h', by rw [if_neg h, if_neg h']⟩)

/-- An arithmetic result is written with its flag, or nothing happens (42_exchange_arith.md rule R143). -/
theorem accumulate_cases (r : Int) (s : State) :
    (ValueOk s.cfg r ∧ accumulate r s = regPut (.zf (zeroOf r)) (regPut (.acc r) s)) ∨
    (¬ ValueOk s.cfg r ∧ accumulate r s = s) := by
  unfold accumulate
  by_cases h : ValueOk s.cfg r
  · exact .inl ⟨h, if_pos h⟩
  · exact .inr ⟨h, if_neg h⟩

/-- The advance step adds one to PC or raises at the last slot (45_execution_cycle.md rule R163). -/
theorem advance_cases (s : State) :
    (PcOk s.cfg ((s.pc : Int) + 1) ∧ advance s = { s with pc := s.pc + 1 }) ∨
    (¬ PcOk s.cfg ((s.pc : Int) + 1) ∧ advance s = raise .valueOutOfRange s) := by
  rcases regSet_cases (.pc ((s.pc : Int) + 1)) s with ⟨h, h'⟩ | ⟨h, h'⟩
  · exact .inl ⟨of_decide_eq_true h, h'⟩
  · exact .inr ⟨of_decide_eq_false h, h'⟩

/-- Steps 4 and 5 of the cycle: halt, or budget, or neither (45_execution_cycle.md rules R164, R165). -/
theorem endChecks_cases (i : Instr) (s : State) :
    (i = .hlt ∧ endChecks i s = halt .normal s) ∨
    (i ≠ .hlt ∧ s.cycles = s.cfg.budget ∧ endChecks i s = halt .budget s) ∨
    (i ≠ .hlt ∧ s.cycles ≠ s.cfg.budget ∧ endChecks i s = s) := by
  unfold endChecks
  by_cases h : i = .hlt
  · exact .inl ⟨h, if_pos h⟩
  · by_cases h' : s.cycles = s.cfg.budget
    · exact .inr (.inl ⟨h, h', by rw [if_neg h, if_pos h']⟩)
    · exact .inr (.inr ⟨h, h', by rw [if_neg h, if_neg h']⟩)

theorem finishCycle_of_terminal {i : Instr} {s : State} (h : s.engine ≠ .running) : finishCycle i s = s := by
  unfold finishCycle
  split <;> simp_all

/-- What the cycle does after an effect that did not raise (45_execution_cycle.md rule R160, steps 3 to 5). -/
theorem finishCycle_cases {i : Instr} {s : State} (h : s.engine = .running) :
    (¬ PcOk s.cfg ((s.pc : Int) + 1) ∧ finishCycle i s = raise .valueOutOfRange s) ∨
    (PcOk s.cfg ((s.pc : Int) + 1) ∧ finishCycle i s = endChecks i (countCycle { s with pc := s.pc + 1 })) := by
  unfold finishCycle
  rw [h]
  rcases advance_cases s with ⟨h1, h2⟩ | ⟨h1, h2⟩
  · exact .inr ⟨h1, by simp [h2, h]⟩
  · exact .inl ⟨h1, by simp [h2]⟩

end Sys2Proof.Machine
end

