-- ==== Sys2Proof/Laws/PerInstr.lean ====
section
/-! SUPPORT. Statements for all instructions, made per instruction. Family `HasWord`: the check `wellFormed` accepts an
instruction exactly when the encoder has a word for it (30_encoding.md rules R92 to R94). -/

namespace Sys2Proof.Laws

/-- An integer operand has a word exactly when it fits 24 signed bits. -/
theorem integerWord_isSome (op : Opcode) (v : Int) : (integerWord op v).isSome = decide (FitsOperand v) := by
  unfold integerWord FitsOperand
  split <;> simp <;> omega

/-- A symbol number has a word exactly when it fits 24 unsigned bits. -/
theorem symbolWord_isSome (op : Opcode) (n : Nat) : (symbolWord op n).isSome = decide (FitsSymbol n) := by
  unfold symbolWord FitsSymbol
  split <;> simp <;> omega

end Sys2Proof.Laws

/-- An instruction is well formed exactly when it has a word. -/
def Sys2Proof.Laws.HasWord.Statement (i : Sys2Proof.Instr) : Prop := (Sys2Proof.encode i).isSome = i.wellFormed

theorem Sys2Proof.Laws.HasWord.dec (name : Sys2Proof.Name) : Sys2Proof.Laws.HasWord.Statement (.dec name) := by
  cases name with
  | text t => rfl
  | symbol n => exact Sys2Proof.Laws.symbolWord_isSome .dec n

theorem Sys2Proof.Laws.HasWord.lda (address : Int) : Sys2Proof.Laws.HasWord.Statement (.lda address) :=
  Sys2Proof.Laws.integerWord_isSome .lda address

theorem Sys2Proof.Laws.HasWord.ldi (value : Int) : Sys2Proof.Laws.HasWord.Statement (.ldi value) :=
  Sys2Proof.Laws.integerWord_isSome .ldi value

theorem Sys2Proof.Laws.HasWord.str (address : Int) : Sys2Proof.Laws.HasWord.Statement (.str address) :=
  Sys2Proof.Laws.integerWord_isSome .str address

theorem Sys2Proof.Laws.HasWord.xch : Sys2Proof.Laws.HasWord.Statement .xch := rfl

theorem Sys2Proof.Laws.HasWord.add : Sys2Proof.Laws.HasWord.Statement .add := rfl

theorem Sys2Proof.Laws.HasWord.sub : Sys2Proof.Laws.HasWord.Statement .sub := rfl

theorem Sys2Proof.Laws.HasWord.jmp (address : Int) : Sys2Proof.Laws.HasWord.Statement (.jmp address) :=
  Sys2Proof.Laws.integerWord_isSome .jmp address

theorem Sys2Proof.Laws.HasWord.jzs (address : Int) : Sys2Proof.Laws.HasWord.Statement (.jzs address) :=
  Sys2Proof.Laws.integerWord_isSome .jzs address

theorem Sys2Proof.Laws.HasWord.hlt : Sys2Proof.Laws.HasWord.Statement .hlt := rfl
end

