-- ==== Sys2Proof/Laws/Step.lean ====
section
/-! SUPPORT. What the effect of an instruction and one step can be, said once. -/

namespace Sys2Proof.Machine

/-- What the effect of an instruction does to the state, if it does not raise (R120 to R152). -/
inductive EffectShape (s : State) : Instr → State → Prop where
  | declare (n : Name) (fresh : n ∉ declaredNames s) (room : s.nalloc < s.cfg.dataSize) :
      EffectShape s (.dec n)
        (emit (.declared n (dataBase s.cfg + s.nalloc)) (symbolPut n (dataBase s.cfg + s.nalloc) s))
  | load (a v : Int) (ok : AddressOk s.cfg a) (cell : s.mem.read a.toNat = .num v) (legal : ValueOk s.cfg v) :
      EffectShape s (.lda a) (regPut (.acc v) s)
  | loadImmediate (v : Int) (legal : ValueOk s.cfg v) : EffectShape s (.ldi v) (regPut (.acc v) s)
  | store (a : Int) (ok : AddressOk s.cfg a) (legal : ValueOk s.cfg s.acc) :
      EffectShape s (.str a) (cellPut a.toNat (.num s.acc) s)
  | exchange : EffectShape s .xch (regPut (.dr s.acc) (regPut (.acc s.dr) s))
  | sum (legal : ValueOk s.cfg (s.acc + s.dr)) :
      EffectShape s .add (regPut (.zf (zeroOf (s.acc + s.dr))) (regPut (.acc (s.acc + s.dr)) s))
  | sumNothing (out : ¬ ValueOk s.cfg (s.acc + s.dr)) : EffectShape s .add s
  | difference (legal : ValueOk s.cfg (s.acc - s.dr)) :
      EffectShape s .sub (regPut (.zf (zeroOf (s.acc - s.dr))) (regPut (.acc (s.acc - s.dr)) s))
  | differenceNothing (out : ¬ ValueOk s.cfg (s.acc - s.dr)) : EffectShape s .sub s
  | jump (a : Int) (legal : PcOk s.cfg a) : EffectShape s (.jmp a) (regPut (.pc a) s)
  | jumpTaken (a : Int) (zero : s.zf = true) (legal : PcOk s.cfg a) : EffectShape s (.jzs a) (regPut (.pc a) s)
  | jumpNotTaken (a : Int) (nonzero : s.zf = false) : EffectShape s (.jzs a) s
  | haltSignal : EffectShape s .hlt (emit .haltSignal s)

/-- An effect takes its shape, or raises one of the four execution-time kinds with nothing written (R162, R210). -/
theorem exec_shape (i : Instr) (s : State) :
    (∃ t, exec i s = .next t ∧ EffectShape s i t) ∨
    (∃ k, k ≠ .missingInstruction ∧ exec i s = .next (raise k s)) := by
  cases i with
  | dec n =>
    rcases allocate_cases n s with ⟨_, h⟩ | ⟨_, _, h⟩ | ⟨h1, h2, h⟩
    · exact .inr ⟨.duplicateVariable, by decide, by simp [exec, execDec, h]⟩
    · exact .inr ⟨.outOfDataMemory, by decide, by simp [exec, execDec, h]⟩
    · exact .inl ⟨_, by simp [exec, execDec, h], .declare n h1 h2⟩
  | lda a =>
    by_cases h : AddressOk s.cfg a
    · cases hc : s.mem.read a.toNat with
      | num v =>
        rcases regSet_cases (.acc v) s with ⟨hl, hr⟩ | ⟨_, hr⟩
        · exact .inl ⟨_, by simp [exec, execLda, memRead_of_ok h, hc, hr], .load a v h hc (of_decide_eq_true hl)⟩
        · exact .inr ⟨.valueOutOfRange, by decide, by simp [exec, execLda, memRead_of_ok h, hc, hr]⟩
      | line t => exact .inr ⟨.valueOutOfRange, by decide, by simp [exec, execLda, memRead_of_ok h, hc]⟩
    · exact .inr ⟨.invalidAddress, by decide, by simp [exec, execLda, memRead_of_invalid h]⟩
  | ldi v =>
    rcases regSet_cases (.acc v) s with ⟨hl, hr⟩ | ⟨_, hr⟩
    · exact .inl ⟨_, by simp [exec, execLdi, hr], .loadImmediate v (of_decide_eq_true hl)⟩
    · exact .inr ⟨.valueOutOfRange, by decide, by simp [exec, execLdi, hr]⟩
  | str a =>
    rcases memWrite_cases a s.acc s with ⟨_, h⟩ | ⟨_, _, h⟩ | ⟨hv, ha, h⟩
    · exact .inr ⟨.valueOutOfRange, by decide, by simp [exec, execStr, h]⟩
    · exact .inr ⟨.invalidAddress, by decide, by simp [exec, execStr, h]⟩
    · exact .inl ⟨_, by simp [exec, execStr, h], .store a ha hv⟩
  | xch => exact .inl ⟨_, rfl, .exchange⟩
  | add =>
    rcases accumulate_cases (s.acc + s.dr) s with ⟨hv, h⟩ | ⟨hv, h⟩
    · exact .inl ⟨_, by simp [exec, execAdd, h], .sum hv⟩
    · exact .inl ⟨_, by simp [exec, execAdd, h], .sumNothing hv⟩
  | sub =>
    rcases accumulate_cases (s.acc - s.dr) s with ⟨hv, h⟩ | ⟨hv, h⟩
    · exact .inl ⟨_, by simp [exec, execSub, h], .difference hv⟩
    · exact .inl ⟨_, by simp [exec, execSub, h], .differenceNothing hv⟩
  | jmp a =>
    rcases regSet_cases (.pc a) s with ⟨hl, hr⟩ | ⟨_, hr⟩
    · exact .inl ⟨_, by simp [exec, execJmp, hr], .jump a (of_decide_eq_true hl)⟩
    · exact .inr ⟨.valueOutOfRange, by decide, by simp [exec, execJmp, hr]⟩
  | jzs a =>
    cases hz : s.zf with
    | false => exact .inl ⟨_, by simp [exec, execJzs, hz], .jumpNotTaken a hz⟩
    | true =>
      rcases regSet_cases (.pc a) s with ⟨hl, hr⟩ | ⟨_, hr⟩
      · exact .inl ⟨_, by simp [exec, execJzs, hz, hr], .jumpTaken a hz (of_decide_eq_true hl)⟩
      · exact .inr ⟨.valueOutOfRange, by decide, by simp [exec, execJzs, hz, hr]⟩
  | hlt => exact .inl ⟨_, rfl, .haltSignal⟩

/-- An effect that does not raise leaves the engine, the count, the program and the parameters alone (R162). -/
theorem EffectShape.fixed {s t : State} {i : Instr} (h : EffectShape s i t) :
    t.engine = s.engine ∧ t.cycles = s.cycles ∧ t.program = s.program ∧ t.cfg = s.cfg := by
  cases h <;> simp

/-- What one call of `step` can do (R160, R161, R166). -/
inductive StepShape (s : State) : State → Prop where
  | terminal (stopped : s.engine ≠ .running) : StepShape s s
  | missing (running : s.engine = .running) (absent : fetch s = none) : StepShape s (raise .missingInstruction s)
  | raised (i : Instr) (k : FaultKind) (running : s.engine = .running) (present : fetch s = some i)
      (kind : k ≠ .missingInstruction) (effect : exec i s = .next (raise k s)) : StepShape s (raise k s)
  | lastSlot (i : Instr) (u : State) (running : s.engine = .running) (present : fetch s = some i)
      (effect : exec i s = .next u) (shape : EffectShape s i u) (last : ¬ PcOk u.cfg ((u.pc : Int) + 1)) :
      StepShape s (raise .valueOutOfRange u)
  | completed (i : Instr) (u : State) (running : s.engine = .running) (present : fetch s = some i)
      (effect : exec i s = .next u) (shape : EffectShape s i u) (room : PcOk u.cfg ((u.pc : Int) + 1)) :
      StepShape s (endChecks i (countCycle { u with pc := u.pc + 1 }))

/-- Every call of `step` answers a next state of one of the five shapes. -/
theorem step_shape {s t : State} (h : step s = .next t) : StepShape s t := by
  unfold step at h
  split at h
  · rename_i hr
    split at h
    · rename_i hf
      cases h
      exact .missing hr hf
    · rename_i i hf
      rcases exec_shape i s with ⟨u, he, hu⟩ | ⟨k, hk, he⟩
      · have hur : u.engine = .running := hu.fixed.1.trans hr
        rw [he] at h
        rcases finishCycle_cases (i := i) hur with ⟨hp, hf'⟩ | ⟨hp, hf'⟩
        · simp only [afterExec, hf'] at h
          cases h
          exact .lastSlot i u hr hf he hu hp
        · simp only [afterExec, hf'] at h
          cases h
          exact .completed i u hr hf he hu hp
      · rw [he] at h
        simp only [afterExec, finishCycle_of_terminal (i := i) (s := raise k s) (by simp)] at h
        cases h
        exact .raised i k hr hf hk he
  · rename_i hr
    cases h
    exact .terminal (by simp [hr])
  · rename_i hr
    cases h
    exact .terminal (by simp [hr])

end Sys2Proof.Machine
end

