-- ==== Sys2Proof/Tests/Slice0.lean ====
section
/-! SUPPORT. Small tests, with expected results from the spec's own vectors (95_test_vectors.md, named in the comments)
or by hand from its rules, and one witness for each hypothesis and clause of the obligations. -/

namespace Sys2Proof.Tests

open Sys2Proof.Machine

/-- The next state of an outcome, if it is one. -/
def nextOf (o : Host.Outcome State Fault Refusal) : Option State :=
  match o with
  | .next s => some s
  | .fault _ => none
  | .refused _ => none

/-- A machine with given registers. -/
def regs (acc dr : Int) (zf : Bool) : State := { State.reset with acc := acc, dr := dr, zf := zf }

/-- A machine about to execute one instruction in a slot. -/
def at_ (slot : Nat) (i : Instr) (zf : Bool) : State :=
  { State.reset with pc := slot, zf := zf, program := List.replicate (slot + 1) i }

/-- The name x, as text. -/
def nameX : Name := .text ['x']

/-- A reset machine with two slots. -/
def smallReset : State := { State.reset with cfg := { standardConfig with progSize := 2 } }

/-- Parameters other than the default ones: 256 slots and 8-bit values. -/
def wideConfig : Config := { standardConfig with progSize := 256, valMin := -128, valMax := 127 }

/-- The registers and engine after one instruction. -/
def after (i : Instr) (s : State) : Option (Int × Int × Bool × Engine) :=
  (nextOf (exec i s)).map fun t => (t.acc, t.dr, t.zf, t.engine)

/-- PC and engine after one cycle. -/
def cycleOf (s : State) : Option (Nat × Nat × Engine) := (nextOf (step s)).map fun t => (t.pc, t.cycles, t.engine)

/-! ### Decoding: words of 95_test_vectors.md section 4.1, and bit by bit from R90 and R91 -/

theorem test_decode_dec : decodeWord 0b0001_0000_000000000000000000000001#32 = .ok (.dec (.symbol 1)) := by decide
theorem test_decode_lda : decodeWord 0b0010_0000_000000000000000010000000#32 = .ok (.lda 128) := by decide
theorem test_decode_ldi : decodeWord 0b0011_0000_111111111000000000000000#32 = .ok (.ldi (-32768)) := by decide
theorem test_decode_str : decodeWord 0b0100_0000_000000000000000011111111#32 = .ok (.str 255) := by decide
theorem test_decode_xch : decodeWord 0b0101_0000_000000000000000000000000#32 = .ok .xch := by decide
theorem test_decode_add : decodeWord 0b0110_0000_000000000000000000000000#32 = .ok .add := by decide
theorem test_decode_sub : decodeWord 0b0111_0000_000000000000000000000000#32 = .ok .sub := by decide
theorem test_decode_jmp : decodeWord 0b1000_0000_000000000000000000000100#32 = .ok (.jmp 4) := by decide
theorem test_decode_jzs : decodeWord 0b1001_0000_111111111111111111111111#32 = .ok (.jzs (-1)) := by decide
theorem test_decode_hlt : decodeWord 0b1010_0000_000000000000000000000000#32 = .ok .hlt := by decide

/-- Section 4.2: opcode 0, 11, 15; bits 27:24; format Z with an operand. -/
theorem test_decode_invalid :
    [0x00000000#32, 0xB0000000#32, 0xFFFFFFFF#32, 0x31000005#32, 0x50000001#32, 0xA0FFFFFF#32].map decodeWord =
      List.replicate 6 (.error .unknownOpcode) := by decide

theorem test_encode_bounds :
    encode (.ldi 8388607) = some 0x307FFFFF#32 ∧ encode (.ldi (-8388608)) = some 0x30800000#32 ∧
      encode (.ldi 8388608) = none ∧ encode (.jzs 9) = some 0x90000009#32 := by decide

theorem test_table_word : decodeTableWord 32 0x50000000 = some .xch ∧ decodeTableWord 32 0x50000001 = none := by decide

/-- Section 4.1: any case, extra spaces. -/
theorem test_line_spacing : decodeLine "  Ldi   -10  ".toList = .ok (some (.ldi (-10))) := by decide
theorem test_line_name : decodeLine "DEC total".toList = .ok (some (.dec (.text "total".toList))) := by decide
theorem test_line_blank : decodeLine "   ".toList = .ok none := by decide

/-- Section 4.2: the refused lines. -/
theorem test_line_refused :
    ["NOP", "; comment", "loop: ADD"].map (fun l => decodeLine l.toList) = List.replicate 3 (.error .unknownOpcode) ∧
    ["LDI", "XCH 5", "LDI 1 2", "LDI +5", "LDI 0x10", "LDA x", "DEC 5"].map (fun l => decodeLine l.toList) =
      List.replicate 7 (.error .badOperand) := by decide

theorem test_print : printLine (.ldi (-32768)) = some "LDI -32768".toList := by decide

/-- Sections 4.1 and 4.2: numbering of names, and an operand that has no word. -/
theorem test_assemble :
    assembleLines ["DEC total".toList, "DEC count".toList, "DEC total".toList] =
      .ok ([0x10000000#32, 0x10000001#32, 0x10000000#32], ["total".toList, "count".toList]) ∧
    assembleLines ["LDI 8388608".toList] = .error .operandTooWide := by decide

theorem test_disassemble :
    disassemble ["total".toList] 0x10000000#32 = some "DEC total".toList ∧
      disassemble [] 0x30FFFFFB#32 = some "LDI -5".toList := by decide

theorem test_image : imageBytes [0x30007FFF#32] = [0xFF#8, 0x7F#8, 0x00#8, 0x30#8] := by decide

/-! ### Well-formedness: an ill-formed term for each check -/

theorem test_ill_formed :
    [Instr.dec (.symbol 16777216), .dec nameX, .lda 8388608, .lda (-8388609), .ldi 8388608, .str (-8388609),
      .jmp 8388608, .jzs (-8388609)].map Instr.wellFormed = List.replicate 8 false := by decide

theorem test_well_formed :
    [Instr.dec (.symbol 16777215), .lda 8388607, .ldi (-8388608), .str 0, .xch, .add, .sub, .jmp (-1), .jzs 500,
      .hlt].map Instr.wellFormed = List.replicate 10 true := by decide

theorem test_not_printable :
    [Instr.dec (.symbol 0), .dec (.text []), .dec (.text "5".toList), .dec (.text "a b".toList)].map Instr.printable =
      List.replicate 4 false := by decide

/-! ### Instructions: 95_test_vectors.md sections 2.1 to 2.4 -/

theorem test_dec_first : (nextOf (exec (.dec nameX) State.reset)).map (fun t => (t.symtab, t.nalloc, t.trace)) =
    some ([(nameX, 128)], 1, [.declared nameX 128]) := by decide
theorem test_dec_duplicate :
    (nextOf (exec (.dec nameX) { State.reset with symtab := [(nameX, 128)], nalloc := 128 })).map
      (fun t => (t.nalloc, t.engine)) = some (128, .faulted .duplicateVariable) := by decide
theorem test_lda_number : after (.lda 130) { regs 0 0 false with mem := [(130, .num (-7))] } =
    some (-7, 0, false, .running) := by decide
theorem test_lda_line : after (.lda 1) { regs 3 0 false with mem := [(1, .line (.line "HLT".toList))] } =
    some (3, 0, false, .faulted .valueOutOfRange) := by decide
theorem test_ldi_least : after (.ldi (-32768)) (regs 0 0 true) = some (-32768, 0, true, .running) := by decide
theorem test_ldi_no_wrap : after (.ldi 65535) (regs 4 0 true) = some (4, 0, true, .faulted .valueOutOfRange) := by decide
theorem test_str_program_cell :
    (nextOf (exec (.str 3) { regs 9 0 false with program := List.replicate 4 .hlt, mem := [(3, .line (.word 0xA0000000#32))] })).map
      (fun t => (t.mem, t.program, t.acc)) = some ([(3, .num 9)], List.replicate 4 .hlt, 9) := by decide
theorem test_str_invalid : after (.str 256) (regs 9 0 false) = some (9, 0, false, .faulted .invalidAddress) := by decide
theorem test_xch : after .xch (regs (-3) 7 true) = some (7, -3, true, .running) := by decide
theorem test_add_overflow_keeps_flag : after .add (regs 32767 1 true) = some (32767, 1, true, .running) := by decide
theorem test_add_zero : after .add (regs 5 (-5) false) = some (0, -5, true, .running) := by decide
theorem test_sub_order : after .sub (regs 0 5 true) = some (-5, 5, false, .running) := by decide
theorem test_sub_negation_of_least : after .sub (regs 0 (-32768) false) = some (0, -32768, false, .running) := by decide
theorem test_jmp_quirk : cycleOf (at_ 5 (.jmp 2) false) = some (3, 1, .running) := by decide
theorem test_jmp_last : cycleOf (at_ 5 (.jmp 127) false) = some (127, 0, .faulted .valueOutOfRange) := by decide
theorem test_jzs_taken : cycleOf (at_ 4 (.jzs 6) true) = some (7, 1, .running) := by decide
theorem test_jzs_not_taken : cycleOf (at_ 4 (.jzs 500) false) = some (5, 1, .running) := by decide
theorem test_hlt : cycleOf (at_ 4 .hlt false) = some (5, 1, .halted .normal) := by decide
theorem test_hlt_last_slot : cycleOf (at_ 127 .hlt false) = some (127, 0, .faulted .valueOutOfRange) := by decide

/-! ### The cycle: section 2.5 -/

theorem test_missing : cycleOf State.reset = some (0, 0, .faulted .missingInstruction) := by decide
theorem test_budget : cycleOf { at_ 0 .xch false with cycles := 999 } = some (1, 1000, .halted .budget) := by decide
theorem test_budget_not_yet : cycleOf { at_ 0 .xch false with cycles := 998 } = some (1, 999, .running) := by decide
theorem test_halt_before_budget : cycleOf { at_ 0 .hlt false with cycles := 999 } = some (1, 1000, .halted .normal) := by
  decide
theorem test_fetch_word : fetch (State.reset.withFetchWord 32 0x3000000A) = some (.ldi 10) := by decide
theorem test_snapshot : (snapshot { regs 1 2 true with pc := 3, mem := [(3, .num 9)] }).currentCell = .num 9 := by decide
theorem test_result : resultOf (.faulted .missingInstruction) = .stoppedOnMissingInstruction := by decide
theorem test_load_too_long :
    loadWords [0x50000000#32, 0xA0000000#32] { State.reset with cfg := { standardConfig with progSize := 1 } } =
      .error .programTooLong := by decide

/-! ### Witnesses: states and operands that meet the hypotheses of the obligations, clause by clause -/

/-- Hypotheses of the encoding statements, at the bounds of each field. -/
theorem witness_codings :
    FitsOperand 8388607 ∧ FitsOperand (-8388608) ∧ FitsSymbol 16777215 ∧ isNumeric "-32769".toList = true ∧
    isNumeric "007".toList = true ∧ isNameToken "total".toList = true ∧ Instr.printable (.dec nameX) = true := by decide

theorem witness_tokens :
    tokens "ldi 5".toList = ["ldi".toList, "5".toList] ∧ tokens "LDI 5".toList = ["LDI".toList, "5".toList] ∧
    "ldi".toList.map upperChar = "LDI".toList.map upperChar ∧ opcodeOfToken "Ldi".toList = some .ldi ∧
    (∀ r ∈ opcodeRows, r.mnemonic ≠ "NOP".toList.map upperChar) ∧ " \t".toList.all isBlank = true := by decide

theorem witness_assembled :
    (∀ n, Instr.dec n ∈ [Instr.dec nameX, .hlt] → ∃ t, n = .text t) ∧
    assemble [.dec nameX, .hlt] = .ok ([0x10000000#32, 0xA0000000#32], [['x']]) := by
  refine ⟨fun n h => ?_, by decide⟩
  simp at h
  exact ⟨['x'], h⟩

/-- Addresses where the clauses of LDA, STR, MemRead and MemWrite meet: 0 and 255 exist, -1 and 256 do not. -/
theorem witness_addresses :
    [0, 127, 128, 255, -1, 256].map (classify standardConfig) =
      [.program, .program, .data, .data, .invalid, .invalid] ∧
    ([0, 255].map fun a => (memRead a State.reset).toOption) = [some (.num 0), some (.num 0)] ∧
    ([-1, 256].map fun a => (memRead a State.reset).toOption) = [none, none] := by decide

theorem witness_store :
    (regs 9 0 false).mem.wf ∧ ValueOk standardConfig 32767 ∧ ValueOk standardConfig (-32768) ∧
    ¬ ValueOk standardConfig 32768 ∧ ¬ ValueOk standardConfig (-32769) ∧
    (memWrite 255 (-32768) State.reset).mem = [(255, .num (-32768))] ∧
    (memWrite 256 32768 State.reset).engine = .faulted .valueOutOfRange ∧
    (memWrite (-1) 0 State.reset).engine = .faulted .invalidAddress := by decide

theorem witness_registers :
    regLegal standardConfig (.acc 32767) = true ∧ regLegal standardConfig (.dr (-32769)) = false ∧
    regLegal standardConfig (.dr (-32768)) = true ∧ regLegal standardConfig (.acc 32768) = false ∧
    regLegal standardConfig (.pc 0) = true ∧ regLegal standardConfig (.pc 127) = true ∧
    regLegal standardConfig (.pc 128) = false ∧ regLegal standardConfig (.pc (-1)) = false := by decide

/-- The jump clauses at their bounds: 0 and 126 complete, 127 faults in the advance step, 128 and -1 in the effect. -/
theorem witness_jumps :
    [0, 126, 127, 128, -1].map (fun a => cycleOf (at_ 5 (.jmp a) false)) =
      [some (1, 1, .running), some (127, 1, .running), some (127, 0, .faulted .valueOutOfRange),
       some (5, 0, .faulted .valueOutOfRange), some (5, 0, .faulted .valueOutOfRange)] ∧
    [0, 126, 127, 128, -1].map (fun a => cycleOf (at_ 5 (.jzs a) true)) =
      [some (1, 1, .running), some (127, 1, .running), some (127, 0, .faulted .valueOutOfRange),
       some (5, 0, .faulted .valueOutOfRange), some (5, 0, .faulted .valueOutOfRange)] ∧
    fetch (at_ 5 (.jmp 126) false) = some (.jmp 126) ∧ (at_ 5 (.jmp 126) false).engine = .running := by decide

/-- HLT and a plain instruction in slots 126 and 127. -/
theorem witness_last_slot :
    cycleOf (at_ 126 .hlt false) = some (127, 1, .halted .normal) ∧
    cycleOf (at_ 127 .xch false) = some (127, 0, .faulted .valueOutOfRange) ∧
    ((at_ 127 .xch false).pc : Int) = pcMax standardConfig ∧ PcOk standardConfig 127 ∧ ¬ PcOk standardConfig 128 ∧
    cycleOf (at_ 127 (.jzs 500) false) = some (127, 0, .faulted .valueOutOfRange) := by decide

/-- The three clauses of a step: the effect raises, the advance raises, the cycle completes. -/
theorem witness_step_clauses :
    (nextOf (exec (.ldi 40000) (at_ 0 (.ldi 40000) false))).map State.engine = some (.faulted .valueOutOfRange) ∧
    (nextOf (exec .add (at_ 127 .add false))).map State.engine = some .running ∧
    (nextOf (exec .add (at_ 0 .add false))).map State.engine = some .running ∧
    decodeWord 0x60000000#32 = .ok .add ∧ fetch State.reset = none := by decide

theorem witness_terminal : cycleOf { State.reset with engine := .halted .normal } = some (0, 0, .halted .normal) := by decide

/-- Steps that change ZF, DR, a cell, the symbol table and the trace. -/
theorem witness_changes :
    (nextOf (step (at_ 0 .add false))).map State.zf = some true ∧
    (nextOf (step { at_ 0 .xch false with acc := 4 })).map State.dr = some 4 ∧
    (nextOf (step { at_ 0 (.str 200) false with acc := 9 })).map (fun t => t.mem.read 200) = some (.num 9) ∧
    (nextOf (step (at_ 0 (.dec nameX) false))).map (fun t => (t.symtab, t.trace)) =
      some ([(nameX, 128)], [.declared nameX 128]) ∧
    (nextOf (step (at_ 0 .hlt false))).map State.trace = some [.haltSignal] := by decide

/-- STR into the first and the last program cell. -/
theorem witness_store_into_program :
    (nextOf (exec (.str 0) (regs 9 0 false))).map State.mem = some [(0, .num 9)] ∧
    (nextOf (exec (.str 127) (regs 9 0 false))).map State.mem = some [(127, .num 9)] := by decide

/-- States that meet the invariant and in which an effect raises, one for each kind of the fault table. -/
theorem witness_fault_table :
    [after (.dec nameX) { State.reset with symtab := [(nameX, 128)], nalloc := 1 },
     after (.dec nameX) { State.reset with cfg := { standardConfig with dataSize := 0 } },
     after (.lda (-1)) State.reset,
     after (.jmp 128) State.reset].map (Option.map fun r => r.2.2.2) =
      [some (.faulted .duplicateVariable), some (.faulted .outOfDataMemory), some (.faulted .invalidAddress),
       some (.faulted .valueOutOfRange)] := by decide

theorem witness_jzs_raises : after (.jzs (-1)) (regs 0 0 true) = some (0, 0, true, .faulted .valueOutOfRange) := by decide

theorem witness_fault_table_inv :
    Inv { State.reset with symtab := [(nameX, 128)], nalloc := 1 } ∧
    Inv { State.reset with cfg := { standardConfig with dataSize := 0 } } ∧ Inv (regs 0 0 true) ∧
    Inv { State.reset with program := [.hlt], mem := [(0, .line (.line "HLT".toList))] } :=
  ⟨⟨by decide, by decide, by decide, by decide, by decide, by decide⟩,
   ⟨by decide, by decide, by decide, by decide, by decide, by decide⟩,
   ⟨by decide, by decide, by decide, by decide, by decide, by decide⟩,
   ⟨by decide, by decide, by decide, by decide, by decide, by decide⟩⟩

/-- A load that succeeds on a reset machine, as text and as words, and loads that are refused. -/
theorem witness_load :
    MayLoad State.reset ∧ ConfigOk standardConfig ∧
    (loadLines ["LDI 1".toList, "  ".toList, "HLT".toList] State.reset).toOption.map (fun t => (t.program, t.mem)) =
      some ([.ldi 1, .hlt], [(0, .line (.line "LDI 1".toList)), (1, .line (.line "HLT".toList))]) ∧
    (loadWords [0xA0000000#32] State.reset).toOption.map (fun t => (t.program, t.mem)) =
      some ([.hlt], [(0, .line (.word 0xA0000000#32))]) ∧
    (loadLines ["HLT".toList, "NOP".toList] State.reset).toOption = none ∧
    loadWords [0xA0000000#32, 0#32] State.reset = .error .unknownOpcode := by decide

/-- What the loader accepts: the empty program, blank lines alone, and a program as long as PROG_SIZE. -/
theorem witness_load_accepted :
    (loadLines [] State.reset).toOption.map (fun t => (t.program, t.mem)) = some ([], []) ∧
    (loadLines [" ".toList] smallReset).toOption.map State.program = some [] ∧
    (loadLines ["ADD".toList, " ".toList, "HLT".toList] smallReset).toOption.map State.program = some [.add, .hlt] ∧
    decodeLines ["ADD".toList, " ".toList, "HLT".toList] = .ok [(.add, "ADD".toList), (.hlt, "HLT".toList)] ∧
    (loadWords [] State.reset).toOption.map State.program = some [] ∧
    (loadWords [0x60000000#32, 0xA0000000#32] smallReset).toOption.map State.program = some [.add, .hlt] := by decide

/-- What the loader refuses: the first failing line names the error, also in a program that is too long, and one line
more than PROG_SIZE is too many. -/
theorem witness_load_refused :
    loadLines ["ADD".toList, "LDI".toList, "NOP".toList, "HLT".toList] smallReset = .error .badOperand ∧
    loadLines ["ADD".toList, "NOP".toList, "LDI".toList] smallReset = .error .unknownOpcode ∧
    loadLines ["ADD".toList, " ".toList, "ADD".toList, "HLT".toList] smallReset = .error .programTooLong := by decide

/-- Reset of a machine that has run: the registers and cells go, the program stays (R240). -/
theorem test_host_reset :
    hostReset { at_ 3 .hlt true with acc := 9, mem := [(1, .num 4)], cycles := 7, engine := .halted .normal } =
      { at_ 3 .hlt false with pc := 0 } := by decide

/-- The default widths of R39, and those of a machine with 256 slots and 8-bit values: PC 200 is kept. -/
theorem test_hardware_widths :
    [valueBits standardConfig, pcBits standardConfig, nallocBits standardConfig, cyclesBits standardConfig] =
      [16, 7, 8, 10] ∧
    [valueBits wideConfig, pcBits wideConfig, nallocBits wideConfig, cyclesBits wideConfig] = [8, 8, 8, 10] ∧
    (hardwareView { State.reset with cfg := wideConfig, pc := 200, acc := -128 }).pc.toNat = 200 ∧
    (hardwareView { State.reset with cfg := wideConfig, pc := 200, acc := -128 }).acc.toInt = -128 := by decide

/-- Parameters a machine can have, at which a width holds the last value of its range and one bit less does not. -/
theorem witness_widths :
    ConfigOk wideConfig ∧ Inv { State.reset with cfg := wideConfig, pc := 200, acc := -128 } ∧
    (BitVec.ofNat 8 255).toNat = 255 ∧ (BitVec.ofNat 7 255).toNat ≠ 255 ∧
    (BitVec.ofInt 8 (-128)).toInt = -128 ∧ (BitVec.ofInt 7 (-128)).toInt ≠ -128 :=
  ⟨by decide, ⟨by decide, by decide, by decide, by decide, by decide, by decide⟩, by decide, by decide, by decide,
    by decide⟩

/-- The premises of the invariant statements, and those of the unreachable fault, in a state that has it already. -/
theorem witness_invariants :
    NamesFromProgram State.reset ∧ CyclesOk State.reset ∧ standardConfig.progSize ≤ standardConfig.dataSize ∧
    CyclesOk { State.reset with cycles := 1000, engine := .halted .budget } ∧
    Inv { State.reset with engine := .faulted .outOfDataMemory } ∧
    cycleOf { State.reset with engine := .faulted .outOfDataMemory } = some (0, 0, .faulted .outOfDataMemory) :=
  ⟨(by intro n h; cases h), by decide, by decide, by decide,
   ⟨by decide, by decide, by decide, by decide, by decide, by decide⟩, by decide⟩

/-- Names given the next symbol number. -/
def shiftName : Name → Name
  | .text t => .text t
  | .symbol n => .symbol (n + 1)

theorem witness_renaming : Function.Injective shiftName ∧ cycleOf (at_ 0 (.dec (.symbol 0)) false) = some (1, 1, .running) := by
  refine ⟨fun a b h => ?_, by decide⟩
  cases a <;> cases b <;> simp_all [shiftName]

theorem witness_erase :
    cycleOf { at_ 0 (.lda 0) false with mem := [(0, .line (.line "LDA 0".toList))] } =
      some (0, 0, .faulted .valueOutOfRange) := by decide

end Sys2Proof.Tests
end

