-- ==== Sys2Proof/Proofs/Memory.lean ====
section
/-! PROOFS. Classification of addresses and the memory read (20_memory.md rules R51, R52). -/

namespace Sys2Proof.Machine

/-- The valid addresses end with the data range, which follows the program range (R51). -/
theorem addressOk_iff (c : Config) (a : Int) :
    AddressOk c a ↔ 0 ≤ a ∧ a < (c.progSize : Int) + c.dataSize := by
  simp [AddressOk, addrLimit]

/-- Each class of address, with the range of numbers that has it. -/
theorem classify_cases (c : Config) (a : Int) :
    (classify c a = .program ∧ 0 ≤ a ∧ a < (c.progSize : Int)) ∨
    (classify c a = .data ∧ (c.progSize : Int) ≤ a ∧ a < (c.progSize : Int) + c.dataSize) ∨
    (classify c a = .invalid ∧ (a < 0 ∨ (c.progSize : Int) + c.dataSize ≤ a)) := by
  have limit : (addrLimit c : Int) = c.progSize + c.dataSize := by simp [addrLimit]
  unfold classify
  split_ifs with hprog hdata
  · exact .inl ⟨rfl, hprog⟩
  · exact .inr (.inl ⟨rfl, hdata.1, limit ▸ hdata.2⟩)
  · refine .inr (.inr ⟨rfl, ?_⟩)
    rw [dataBase, limit] at hdata
    omega

/-- The ranges of `classify_cases` exclude each other, so each one decides its class. -/
theorem classify_eq_iff (c : Config) (a : Int) :
    (classify c a = .program ↔ 0 ≤ a ∧ a < (c.progSize : Int)) ∧
    (classify c a = .data ↔ (c.progSize : Int) ≤ a ∧ a < (c.progSize : Int) + c.dataSize) ∧
    (classify c a = .invalid ↔ a < 0 ∨ (c.progSize : Int) + c.dataSize ≤ a) := by
  rcases classify_cases c a with ⟨h, range⟩ | ⟨h, range⟩ | ⟨h, range⟩ <;>
    simp only [h, reduceCtorEq, true_iff, false_iff] <;> omega

/-- The addresses that memory operations accept are those of the two valid classes. -/
theorem classify_ne_invalid_iff (c : Config) (a : Int) : classify c a ≠ .invalid ↔ AddressOk c a := by
  obtain ⟨_, _, invalid⟩ := classify_eq_iff c a
  rw [Ne, invalid, addressOk_iff]
  omega

/-- A write that passes both checks stores the cell; the third case of `memWrite_cases`. -/
theorem memWrite_of_ok {a v : Int} {s : State} (hv : ValueOk s.cfg v) (ha : AddressOk s.cfg a) :
    memWrite a v s = cellPut a.toNat (.num v) s := by
  rcases memWrite_cases a v s with ⟨bad, _⟩ | ⟨_, bad, _⟩ | ⟨_, _, h⟩
  · exact absurd hv bad
  · exact absurd ha bad
  · exact h

/-- Settles O22: the three classes are the three ranges, and the checks of both memory operations ask for nothing but
an address of a valid class and, in a write, a value in range. -/
theorem addressesAreClassifiedByNumber : Obligations.AddressesAreClassifiedByNumber := by
  refine ⟨classify_eq_iff, fun s a v valid => ?_⟩
  have ha : AddressOk s.cfg a := (classify_ne_invalid_iff s.cfg a).mp valid
  refine ⟨⟨_, memRead_of_ok ha⟩, fun hmin hmax => ?_⟩
  rw [memWrite_of_ok ⟨hmin, hmax⟩ ha, cellPut_engine]

/-- Settles O23: the range of the statement is the check of `memRead`. -/
theorem memReadGivesTheCellOrInvalidAddress : Obligations.MemReadGivesTheCellOrInvalidAddress := by
  intro s a
  refine ⟨fun low high => memRead_of_ok ((addressOk_iff s.cfg a).mpr ⟨low, high⟩), fun out => memRead_of_invalid ?_⟩
  rw [addressOk_iff]
  omega

end Sys2Proof.Machine
end

section
/-! PROOFS. The fetch and the halt check of the cycle (45_execution_cycle.md rules R161, R164). -/

namespace Sys2Proof.Machine

/-- An absent slot ends the cycle at the fetch; the shape `missing` of `StepShape`, as an equation (R161). -/
theorem step_of_fetch_none {s : State} (running : s.engine = .running) (absent : fetch s = none) :
    step s = .next (raise .missingInstruction s) := by
  simp [step, running, absent]

/-- Settles O27: the slot is absent exactly past the end of PROGRAM, and PROGRAM is all that `fetch` reads. -/
theorem fetchOfAnAbsentSlotStops : Obligations.FetchOfAnAbsentSlotStops := by
  intro s running
  refine ⟨fun past => ?_, fun i present => ⟨present, fun _ => present⟩⟩
  have absent : fetch s = none := List.getElem?_eq_none past
  exact step_of_fetch_none running absent

/-- From a running engine the two checks halt normally for HLT alone: the budget halt has its own reason (R164, R165). -/
theorem eq_hlt_of_endChecks_halted_normal {i : Instr} {s : State} (running : s.engine = .running)
    (normal : (endChecks i s).engine = .halted .normal) : i = .hlt := by
  rcases endChecks_cases i s with ⟨hlt, _⟩ | ⟨_, _, checked⟩ | ⟨_, _, checked⟩
  · exact hlt
  · simp [checked] at normal
  · simp [checked, running] at normal

/-- No instruction but HLT halts normally (R164); the shapes of a cycle that raises leave the engine faulted. -/
theorem fetch_of_step_halted_normal {s t : State} (running : s.engine = .running) (h : step s = .next t)
    (normal : t.engine = .halted .normal) : fetch s = some .hlt := by
  cases step_shape h with
  | terminal stopped => exact absurd running stopped
  | missing | raised | lastSlot => simp at normal
  | completed i u _ present _ shape _ =>
    obtain ⟨engine, _, _, _⟩ := shape.fixed
    have hlt : i = .hlt := eq_hlt_of_endChecks_halted_normal (by simp [engine, running]) normal
    rw [present, hlt]

/-- The two ends of a cycle of HLT (R160, R164): its advance step raises, or it halts normally, whatever the count. -/
theorem step_of_hlt {s t : State} (running : s.engine = .running) (fetched : fetch s = some .hlt)
    (h : step s = .next t) :
    t = raise .valueOutOfRange (emit .haltSignal s) ∨
    t = halt .normal (countCycle { emit .haltSignal s with pc := s.pc + 1 }) := by
  have cycle : step s = .next (finishCycle .hlt (emit .haltSignal s)) := by
    simp [step, running, fetched, exec, execHlt, afterExec]
  obtain rfl : finishCycle .hlt (emit .haltSignal s) = t := by simpa [cycle] using h
  rcases finishCycle_cases (i := .hlt) (s := emit .haltSignal s) running with ⟨_, raised⟩ | ⟨_, advanced⟩
  · exact .inl raised
  · exact .inr (advanced.trans (if_pos rfl))

/-- Settles O28: only HLT halts normally, and a cycle of HLT that does not raise ends in the one state of
`step_of_hlt`, which no check of the budget can change. -/
theorem haltCheckPrecedesBudgetCheck : Obligations.HaltCheckPrecedesBudgetCheck := by
  intro s t running h
  refine ⟨⟨fun normal => ⟨fetch_of_step_halted_normal running h normal, by simp [normal]⟩, ?_⟩, fun normal => ?_, ?_⟩
  · rintro ⟨fetched, noFault⟩
    rcases step_of_hlt running fetched h with rfl | rfl
    · exact absurd rfl (noFault .valueOutOfRange)
    · rfl
  · rcases step_of_hlt running (fetch_of_step_halted_normal running h normal) h with rfl | rfl
    · simp at normal
    · rfl
  · intro fetched _
    rcases step_of_hlt running fetched h with rfl | rfl <;> simp

end Sys2Proof.Machine
end

section
/-! PROOFS. The binary words: encoder and decoder are inverse, and the decoder is the mask table (30_encoding.md section 4,
rules R90 to R100). -/

namespace Sys2Proof

/-! ### Encoder and decoder -/

theorem symbolField_symbolOperand (f : Field) : symbolField (symbolOperand f) = f := by
  simp [symbolField, symbolOperand]

theorem symbolOperand_symbolField {n : Nat} (fits : n < 16777216) : symbolOperand (symbolField n) = n :=
  Nat.mod_eq_of_lt fits

/-- The words of format `I` (R92). -/
theorem integerWord_eq_some_iff {op : Opcode} {v : Int} {w : Word} :
    integerWord op v = some w ↔ (-8388608 ≤ v ∧ v ≤ 8388607) ∧ wordOf op (integerField v) = w := by
  simp [integerWord]

/-- The words of format `N` (R93). -/
theorem symbolWord_eq_some_iff {op : Opcode} {n : Nat} {w : Word} :
    symbolWord op n = some w ↔ n < 16777216 ∧ wordOf op (symbolField n) = w := by
  simp [symbolWord]

/-- The per-instruction statements `HasWord`, put together: the encoder has a word for the well-formed instructions. -/
theorem encode_isSome (i : Instr) : (encode i).isSome = i.wellFormed := by
  cases i with
  | dec n => exact Laws.HasWord.dec n
  | lda a => exact Laws.HasWord.lda a
  | ldi v => exact Laws.HasWord.ldi v
  | str a => exact Laws.HasWord.str a
  | xch => exact Laws.HasWord.xch
  | add => exact Laws.HasWord.add
  | sub => exact Laws.HasWord.sub
  | jmp a => exact Laws.HasWord.jmp a
  | jzs a => exact Laws.HasWord.jzs a
  | hlt => exact Laws.HasWord.hlt

/-- The word of an instruction is put together from an opcode and a field that select the instruction (R97). -/
theorem encode_fields {i : Instr} {w : Word} (h : encode i = some w) :
    ∃ op f, w = wordOf op f ∧ wordInstr op f = some i := by
  cases i with
  | dec n =>
    cases n with
    | text t => cases h
    | symbol n =>
      obtain ⟨fits, rfl⟩ := symbolWord_eq_some_iff.1 h
      exact ⟨.dec, _, rfl, by simp [wordInstr, symbolOperand_symbolField fits]⟩
  | lda a | ldi a | str a | jmp a | jzs a =>
    obtain ⟨fits, rfl⟩ := integerWord_eq_some_iff.1 h
    exact ⟨_, _, rfl, by simp [wordInstr, signedOperand_integerField fits]⟩
  | xch | add | sub | hlt =>
    cases h
    exact ⟨_, 0, rfl, rfl⟩

/-- The word of an instruction decodes to it (R96). -/
theorem decodeWord_of_encode {i : Instr} {w : Word} (h : encode i = some w) : decodeWord w = .ok i := by
  obtain ⟨op, f, rfl, selected⟩ := encode_fields h
  simp [decodeWord_wordOf, selected]

/-- The instruction that an opcode and a field select has the word put together from them (R97). -/
theorem encode_of_wordInstr {op : Opcode} {f : Field} {i : Instr} (h : wordInstr op f = some i) :
    encode i = some (wordOf op f) := by
  cases op with
  | dec =>
    cases h
    exact symbolWord_eq_some_iff.2 ⟨f.isLt, by rw [symbolField_symbolOperand]⟩
  | lda | ldi | str | jmp | jzs =>
    cases h
    exact integerWord_eq_some_iff.2 ⟨signedOperand_range f, by rw [integerField_signedOperand]⟩
  | xch | add | sub | hlt =>
    obtain ⟨rfl, ⟨⟩⟩ := Option.ite_none_right_eq_some.1 h
    rfl

/-- Settles O2: `encode` has a word for a well-formed instruction, and the decoder inverts `encode`. -/
theorem decodeOfEncodeIsTheInstruction : Obligations.DecodeOfEncodeIsTheInstruction := by
  intro i wellFormed
  obtain ⟨w, hw⟩ := Option.isSome_iff_exists.1 ((encode_isSome i).trans wellFormed)
  exact ⟨w, hw, decodeWord_of_encode hw⟩

/-- Settles O3: the decoder reads an opcode and a field, and the encoder puts the same two together. -/
theorem encodeOfDecodeIsTheWord : Obligations.EncodeOfDecodeIsTheWord := by
  intro w i h
  obtain ⟨op, f, rfl, selected⟩ := decodeWord_ok h
  have word := encode_of_wordInstr selected
  exact ⟨word, by simp [← encode_isSome, word]⟩

/-- Settles O1: the fields of each word, computed. -/
theorem decodesTheSpecsWords : Obligations.DecodesTheSpecsWords := by
  unfold Obligations.DecodesTheSpecsWords
  decide

/-! ### The mask table (R99) -/

/-- `UnknownOpcode` is the one refusal of a word (R95). -/
theorem decodeWord_cases (w : Word) : (∃ i, decodeWord w = .ok i) ∨ decodeWord w = .error .unknownOpcode := by
  unfold decodeWord
  repeat' split
  all_goals simp

theorem decodeWord_isOk_iff (w : Word) :
    (∃ i, decodeWord w = .ok i) ↔ ∃ op f, w = wordOf op f ∧ (wordInstr op f).isSome = true := by
  constructor
  · rintro ⟨i, h⟩
    obtain ⟨op, f, word, selected⟩ := decodeWord_ok h
    exact ⟨op, f, word, by simp [selected]⟩
  · rintro ⟨op, f, rfl, isSome⟩
    obtain ⟨i, selected⟩ := Option.isSome_iff_exists.1 isSome
    exact ⟨i, by simp [decodeWord_wordOf, selected]⟩

theorem rowPattern_toNat (op : Opcode) : (rowOf op).pattern.toNat = (rowOf op).number * 2 ^ 28 := by
  cases op <;> rfl

/-- The mask of formats `N` and `I` keeps bits 31 to 24. -/
theorem toNat_and_topByte (w : Word) : (w &&& 0xFF000000#32).toNat = w.toNat / 2 ^ 24 * 2 ^ 24 := by
  have := w.isLt
  rw [show 0xFF000000#32 = BitVec.allOnes 32 <<< 24 by decide, ← BitVec.shiftLeft_ushiftRight,
    BitVec.toNat_shiftLeft, BitVec.toNat_ushiftRight, Nat.shiftLeft_eq, Nat.shiftRight_eq_div_pow]
  omega

/-- Under the mask of formats `N` and `I` a row selects the words of its opcode, whatever the operand field. -/
theorem topByte_eq_pattern_iff (op : Opcode) (w : Word) :
    w &&& 0xFF000000#32 = (rowOf op).pattern ↔ ∃ f, w = wordOf op f := by
  rw [← BitVec.toNat_inj, toNat_and_topByte, rowPattern_toNat]
  constructor
  · intro h
    refine ⟨operandField w, (wordOf_fields ?_ ?_).symm⟩
    · rw [opcodeField_toNat]; omega
    · rw [zeroField_toNat]; omega
  · rintro ⟨f, rfl⟩
    have := f.isLt
    rw [wordOf_toNat]
    omega

/-- Under the full mask a row selects the word of its opcode with operand field 0. -/
theorem eq_pattern_iff (op : Opcode) (w : Word) : w = (rowOf op).pattern ↔ w = wordOf op 0 := by
  have : (rowOf op).pattern = wordOf op 0 := by cases op <;> rfl
  rw [this]

/-- A row selects the words from which the decoder reads an instruction of its opcode. -/
theorem rowOf_selects_iff (op : Opcode) (w : Word) :
    (rowOf op).selects w = true ↔ ∃ f, w = wordOf op f ∧ (wordInstr op f).isSome = true := by
  rw [OpcodeRow.selects, beq_iff_eq]
  cases op with
  | dec | lda | ldi | str | jmp | jzs =>
    exact (topByte_eq_pattern_iff _ w).trans (by simp [wordInstr])
  | xch | add | sub | hlt =>
    rw [show w &&& (rowOf _).mask = w from BitVec.and_allOnes, eq_pattern_iff]
    simp [wordInstr]

/-- The selecting row's number stands in bits 31 to 28, so no other row selects. -/
theorem opcodeField_of_selects {r : OpcodeRow} {w : Word} (mem : r ∈ opcodeRows) (h : r.selects w = true) :
    opcodeField w = r.number := by
  rw [← rowOf_opcode r mem] at h ⊢
  obtain ⟨f, rfl, _⟩ := (rowOf_selects_iff _ w).1 h
  exact opcodeField_wordOf _ f

/-- Settles O4: a row selects exactly the words that the decoder reads as instructions of its opcode, and rows have
different numbers. -/
theorem decoderIsTheMaskTable : Obligations.DecoderIsTheMaskTable := by
  intro w
  have table : (∃ i, decodeWord w = .ok i) ↔ ∃ r ∈ opcodeRows, r.selects w = true := by
    rw [decodeWord_isOk_iff]
    constructor
    · rintro ⟨op, word⟩
      exact ⟨rowOf op, rowOf_mem op, (rowOf_selects_iff op w).2 word⟩
    · rintro ⟨r, mem, selects⟩
      rw [← rowOf_opcode r mem] at selects
      exact ⟨r.opcode, (rowOf_selects_iff _ w).1 selects⟩
  refine ⟨table, fun r hr q hq rSelects qSelects => ?_, fun noRow => ?_⟩
  · have numbersDiffer : ∀ r ∈ opcodeRows, ∀ q ∈ opcodeRows, r.number = q.number → r = q := by decide
    exact numbersDiffer r hr q hq
      ((opcodeField_of_selects hr rSelects).symm.trans (opcodeField_of_selects hq qSelects))
  · rcases decodeWord_cases w with ok | refused
    · obtain ⟨r, mem, selects⟩ := table.1 ok
      simp [noRow r mem] at selects
    · exact refused

/-! ### Image bytes and the assembler -/

/-- Settles O10: by induction on the words, each of them put together again from its four bytes. -/
theorem imageBytesRoundTrip : Obligations.ImageBytesRoundTrip := by
  intro ws
  induction ws with
  | nil => rfl
  | cons w ws ih =>
    have head : imageBytes (w :: ws) = wordBytes w ++ imageBytes ws := rfl
    rw [head, wordBytes, List.cons_append, List.cons_append, List.cons_append, List.cons_append, List.nil_append,
      imageWords, ih, bytesWord_wordBytes]
    rfl

theorem encodeAll_cons_ok {i : Instr} {is : List Instr} {ws : List Word} (h : encodeAll (i :: is) = .ok ws) :
    ∃ w us, encode i = some w ∧ encodeAll is = .ok us ∧ ws = w :: us := by
  rw [encodeAll] at h
  cases hi : encode i with
  | none => simp [hi] at h
  | some w =>
    cases his : encodeAll is with
    | error e => simp [hi, his, Except.map] at h
    | ok us =>
      simp only [hi, his, Except.map, Except.ok.injEq] at h
      exact ⟨w, us, rfl, rfl, h.symm⟩

/-- The words of a list of instructions decode to the list. -/
theorem decodeWords_of_encodeAll {is : List Instr} {ws : List Word} (h : encodeAll is = .ok ws) :
    decodeWords ws = .ok (is.zip ws) := by
  induction is generalizing ws with
  | nil => cases h; rfl
  | cons i is ih =>
    obtain ⟨w, us, word, words, rfl⟩ := encodeAll_cons_ok h
    rw [decodeWords, decodeWord_of_encode word, ih words]
    rfl

theorem subset_listingFrom (seen : List Text) (is : List Instr) : seen ⊆ listingFrom seen is := by
  induction seen, is using listingFrom.induct with
  | case1 seen => exact List.Subset.refl seen
  | case2 seen t is ih =>
    rw [listingFrom]
    refine List.Subset.trans ?_ ih
    split <;> simp
  | case3 seen i is notDec ih => rwa [listingFrom.eq_3 _ _ _ notDec]

/-- Every name that a program declares as characters stands in its listing (R93). -/
theorem mem_listingFrom {t : Text} {seen : List Text} {is : List Instr} (h : .dec (.text t) ∈ is) :
    t ∈ listingFrom seen is := by
  induction seen, is using listingFrom.induct with
  | case1 seen => cases h
  | case2 seen u is ih =>
    rw [listingFrom]
    rcases List.mem_cons.1 h with same | later
    · cases same
      refine subset_listingFrom _ is ?_
      split <;> simp [*]
    · exact ih later
  | case3 seen i is notDec ih =>
    rw [listingFrom.eq_3 _ _ _ notDec]
    rcases List.mem_cons.1 h with rfl | later
    · exact absurd rfl (notDec t)
    · exact ih later

/-- The listing spells a number back as the name it was given to (R93, R101). -/
theorem spellName_numberName {names : List Text} {t : Text} (h : t ∈ names) :
    spellName names (numberName names (.text t)) = .text t := by
  simp [numberName, spellName, h]

theorem mapName_spellName_numberName {names : List Text} {i : Instr}
    (listed : ∀ n, i = .dec n → ∃ t ∈ names, n = .text t) :
    (i.mapName (numberName names)).mapName (spellName names) = i := by
  cases i with
  | dec n =>
    obtain ⟨t, mem, rfl⟩ := listed n rfl
    exact congrArg Instr.dec (spellName_numberName mem)
  | _ => rfl

/-- Settles O11: the words are those of the numbered program, and every name of the program is listed. -/
theorem assembledProgramDecodesToItself : Obligations.AssembledProgramDecodesToItself := by
  intro is ws names texts assembled
  unfold assemble at assembled
  cases words : encodeAll (is.map (Instr.mapName (numberName (listing is)))) with
  | error e => simp [words, Except.map] at assembled
  | ok us =>
    simp only [words, Except.map, Except.ok.injEq, Prod.mk.injEq] at assembled
    obtain ⟨rfl, rfl⟩ := assembled
    refine ⟨decodeWords_of_encodeAll words, ?_⟩
    rw [List.map_map]
    refine (List.map_congr_left fun i mem => mapName_spellName_numberName fun n dec => ?_).trans (List.map_id is)
    subst dec
    obtain ⟨t, rfl⟩ := texts n mem
    exact ⟨t, mem_listingFrom mem, rfl⟩

end Sys2Proof
end

section
/-! PROOFS. The text lines: printer and decoder, the operand tokens of each format, blank lines (30_encoding.md sections
2 and 5, rules R82 to R87, R101). And the encoding clause of an instruction rule, once for each format. -/

namespace Sys2Proof

/-! ### Lines by their tokens -/

theorem decodeLine_of_tokens {l t : Text} {ops : List Text} {op : Opcode} (parts : tokens l = t :: ops)
    (mnemonic : opcodeOfToken t = some op) : decodeLine l = (lineInstr op ops).map some := by
  simp [decodeLine, parts, mnemonic]

theorem decodeLine_of_unknown {l t : Text} {ops : List Text} (parts : tokens l = t :: ops)
    (unknown : opcodeOfToken t = none) : decodeLine l = .error .unknownOpcode := by
  simp [decodeLine, parts, unknown]

theorem decodeLine_of_blank {l : Text} (blank : l.all isBlank = true) : decodeLine l = .ok none := by
  simp [decodeLine, tokens_blank blank]

/-- A line that decodes to an instruction starts with the mnemonic of its opcode (R82, R83). -/
theorem decodeLine_ok {l : Text} {i : Instr} (h : decodeLine l = .ok (some i)) :
    ∃ t ops op, tokens l = t :: ops ∧ opcodeOfToken t = some op ∧ lineInstr op ops = .ok i := by
  cases parts : tokens l with
  | nil => simp [decodeLine, parts] at h
  | cons t ops =>
    cases mnemonic : opcodeOfToken t with
    | none => simp [decodeLine_of_unknown parts mnemonic] at h
    | some op =>
      rw [decodeLine_of_tokens parts mnemonic] at h
      cases operands : lineInstr op ops with
      | error e => simp [operands, Except.map] at h
      | ok j =>
        simp only [operands, Except.map, Except.ok.injEq, Option.some.injEq] at h
        exact ⟨t, ops, op, rfl, mnemonic, by rw [operands, h]⟩

/-! ### Printed lines -/

theorem mnemonic_ne_nil (op : Opcode) : (rowOf op).mnemonic ≠ [] := by cases op <;> decide

theorem mnemonic_noBlank (op : Opcode) : (rowOf op).mnemonic.all (fun c => !isBlank c) = true := by
  cases op <;> decide

theorem opcodeOfToken_mnemonic (op : Opcode) : opcodeOfToken (rowOf op).mnemonic = some op := by cases op <;> decide

/-- A mnemonic alone is a line with no operand token. -/
theorem decodeLine_mnemonic (op : Opcode) : decodeLine (rowOf op).mnemonic = (lineInstr op []).map some :=
  decodeLine_of_tokens (tokens_single (mnemonic_ne_nil op) (mnemonic_noBlank op)) (opcodeOfToken_mnemonic op)

/-- Mnemonic, one space, operand: a line with one operand token. -/
theorem decodeLine_operandLine (op : Opcode) {tok : Text} (ne : tok ≠ [])
    (noBlank : tok.all (fun c => !isBlank c) = true) :
    decodeLine (operandLine op tok) = (lineInstr op [tok]).map some :=
  decodeLine_of_tokens (tokens_pair (mnemonic_ne_nil op) ne (mnemonic_noBlank op) noBlank) (opcodeOfToken_mnemonic op)

theorem isNameToken_iff {t : Text} :
    isNameToken t = true ↔ (t ≠ [] ∧ t.all (fun c => !isBlank c) = true) ∧ isNumeric t = false := by
  simp [isNameToken]

theorem decodeLine_name {tok : Text} (name : isNameToken tok = true) :
    decodeLine (operandLine .dec tok) = .ok (some (.dec (.text tok))) := by
  obtain ⟨⟨ne, noBlank⟩, notNumeric⟩ := isNameToken_iff.1 name
  simp [decodeLine_operandLine .dec ne noBlank, lineInstr, nameOperand, notNumeric, Except.map]

/-- The line of an opcode of format `I` whose instruction is `make` of the operand. -/
theorem decodeLine_integer {op : Opcode} {make : Int → Instr} (reads : lineInstr op = integerOperand make)
    {tok : Text} (numeric : isNumeric tok = true) :
    decodeLine (operandLine op tok) = .ok (some (make (tokenValue tok))) := by
  obtain ⟨ne, noBlank⟩ := isNumeric_noBlank numeric
  simp [decodeLine_operandLine op ne noBlank, reads, integerOperand, numeric, Except.map]

/-- The printed integer is the token of that value. -/
theorem decodeLine_intText {op : Opcode} {make : Int → Instr} (reads : lineInstr op = integerOperand make) (v : Int) :
    decodeLine (operandLine op (intText v)) = .ok (some (make v)) := by
  obtain ⟨numeric, value⟩ := intText_spec v
  rw [decodeLine_integer reads numeric, value]

/-- Settles O5: a printed line holds the mnemonic and, if the format has one, the token of the operand. -/
theorem decodeOfPrintIsTheInstruction : Obligations.DecodeOfPrintIsTheInstruction := by
  intro i printable
  cases i with
  | dec n =>
    cases n with
    | text t => exact ⟨_, rfl, decodeLine_name printable⟩
    | symbol k => cases printable
  | lda a | ldi a | str a | jmp a | jzs a => exact ⟨_, rfl, decodeLine_intText rfl a⟩
  | xch | add | sub | hlt => exact ⟨_, rfl, decodeLine_mnemonic _⟩

/-! ### Operand tokens by format -/

theorem noOperand_ok_iff {i j : Instr} {ops : List Text} : noOperand i ops = .ok j ↔ ops = [] ∧ i = j := by
  cases ops <;> simp [noOperand]

theorem integerOperand_ok_iff {make : Int → Instr} {ops : List Text} {j : Instr} :
    integerOperand make ops = .ok j ↔ ∃ tok, ops = [tok] ∧ isNumeric tok = true ∧ make (tokenValue tok) = j := by
  match ops with
  | [] | _ :: _ :: _ => simp [integerOperand]
  | [tok] => cases numeric : isNumeric tok <;> simp [integerOperand, numeric]

theorem nameOperand_ok_iff {make : Name → Instr} {ops : List Text} {j : Instr} :
    nameOperand make ops = .ok j ↔ ∃ tok, ops = [tok] ∧ isNumeric tok = false ∧ make (.text tok) = j := by
  match ops with
  | [] | _ :: _ :: _ => simp [nameOperand]
  | [tok] => cases numeric : isNumeric tok <;> simp [nameOperand, numeric]

/-- The operand tokens of a line are read, or refused with `BadOperand` (R84 to R86). -/
theorem lineInstr_cases (op : Opcode) (ops : List Text) :
    (∃ i, lineInstr op ops = .ok i) ∨ lineInstr op ops = .error .badOperand := by
  cases op with
  | xch | add | sub | hlt => cases ops <;> simp [lineInstr, noOperand]
  | lda | ldi | str | jmp | jzs =>
    simp only [lineInstr, integerOperand]
    repeat' split
    all_goals simp
  | dec =>
    simp only [lineInstr, nameOperand]
    repeat' split
    all_goals simp

/-- An instruction read from tokens is printable: only DEC keeps a token, and no integer is a name (R85). -/
theorem printable_of_lineInstr {op : Opcode} {ops : List Text} {i : Instr} (h : lineInstr op ops = .ok i)
    (words : ∀ tok ∈ ops, tok ≠ [] ∧ tok.all (fun c => !isBlank c) = true) : i.printable = true := by
  cases op with
  | dec =>
    obtain ⟨tok, rfl, notNumeric, rfl⟩ := nameOperand_ok_iff.1 h
    exact isNameToken_iff.2 ⟨words tok (List.mem_singleton_self tok), notNumeric⟩
  | lda | ldi | str | jmp | jzs =>
    obtain ⟨tok, _, _, rfl⟩ := integerOperand_ok_iff.1 h
    rfl
  | xch | add | sub | hlt =>
    obtain ⟨_, rfl⟩ := noOperand_ok_iff.1 h
    rfl

/-- Settles O6: the tokens of a line are not empty and hold no separator. -/
theorem decodedLinesArePrintable : Obligations.DecodedLinesArePrintable := by
  intro line i h
  obtain ⟨t, ops, op, parts, _, operands⟩ := decodeLine_ok h
  refine printable_of_lineInstr operands fun tok mem => ?_
  have isToken : tok ∈ tokens line := parts ▸ List.mem_cons_of_mem t mem
  exact tokensFrom_noBlank (run := []) rfl isToken

/-- Settles O7: the opcode of a token depends on its capitals alone. -/
theorem mnemonicsIgnoreCase : Obligations.MnemonicsIgnoreCase := by
  refine ⟨fun l l' t t' ops parts parts' capitals => ?_, fun l t ops parts unknown => ?_⟩
  · have same : opcodeOfToken t = opcodeOfToken t' := by simp only [opcodeOfToken, capitals]
    simp only [decodeLine, parts, parts', same]
  · refine decodeLine_of_unknown parts ?_
    simpa [opcodeOfToken] using unknown

/-- Settles O8: the operand tokens of the format are those that `lineInstr` reads. -/
theorem operandTokensMatchTheFormat : Obligations.OperandTokensMatchTheFormat := by
  intro l t ops op parts mnemonic
  rw [decodeLine_of_tokens parts mnemonic]
  constructor
  · have reads : (∃ i, (lineInstr op ops).map some = .ok (some i)) ↔ ∃ i, lineInstr op ops = .ok i := by
      cases lineInstr op ops <;> simp [Except.map]
    rw [reads]
    cases op with
    | dec =>
      simp only [lineInstr, nameOperand_ok_iff]
      exact ⟨fun ⟨_, tok, one, name, _⟩ => ⟨tok, one, name⟩, fun ⟨tok, one, name⟩ => ⟨_, tok, one, name, rfl⟩⟩
    | lda | ldi | str | jmp | jzs =>
      simp only [lineInstr, integerOperand_ok_iff]
      exact ⟨fun ⟨_, tok, one, num, _⟩ => ⟨tok, one, num⟩, fun ⟨tok, one, num⟩ => ⟨_, tok, one, num, rfl⟩⟩
    | xch | add | sub | hlt =>
      simp only [lineInstr, noOperand_ok_iff]
      exact ⟨fun ⟨_, empty, _⟩ => empty, fun empty => ⟨_, empty, rfl⟩⟩
  · intro refused
    rcases lineInstr_cases op ops with ⟨i, ok⟩ | bad
    · exact absurd (by rw [ok]; rfl) (refused i)
    · rw [bad]; rfl

/-- Settles O9: by induction on the lines before the blank one, which itself decodes to nothing. -/
theorem blankLinesTakeNoSlot : Obligations.BlankLinesTakeNoSlot := by
  intro before after l blank
  induction before with
  | nil => simp [decodeLines, decodeLine_of_blank blank]
  | cons b bs ih => simp only [List.cons_append, decodeLines, ih]

/-! ### The encoding clause of an instruction rule -/

/-- An opcode of format `Z` (R86, R94). -/
theorem plainCoding_of {op : Opcode} {i : Instr} (line : lineInstr op [] = .ok i)
    (word : encode i = some (wordOf op 0)) : Machine.PlainCoding (rowOf op).mnemonic (wordOf op 0) i :=
  ⟨by rw [decodeLine_mnemonic, line]; rfl, word, decodeWord_of_encode word⟩

/-- The operand field of an integer, as a number (R97). -/
theorem integerField_toNat (v : Int) : ((integerField v).toNat : Int) = v % 2 ^ 24 := by
  rw [integerField, BitVec.toNat_ofInt]
  omega

/-- An opcode of format `I` (R84, R92). -/
theorem integerCoding_of {op : Opcode} {make : Int → Instr} (line : lineInstr op = integerOperand make)
    (word : ∀ v, encode (make v) = integerWord op v) :
    Machine.IntegerCoding (rowOf op).mnemonic ((rowOf op).number * 2 ^ 28) make := by
  refine ⟨fun tok numeric => decodeLine_integer line numeric, fun v fits => ?_⟩
  have code : encode (make v) = some (wordOf op (integerField v)) := by
    rw [word, integerWord_eq_some_iff]
    exact ⟨by omega, rfl⟩
  refine ⟨_, ?_, code, decodeWord_of_encode code⟩
  rw [wordOf_toNat, ← integerField_toNat]
  push_cast
  rfl

/-- DEC, the one opcode of format `N` (R85, R93). -/
theorem nameCoding_dec : Machine.NameCoding (rowOf .dec).mnemonic ((rowOf .dec).number * 2 ^ 28) .dec := by
  refine ⟨fun tok name => decodeLine_name name, fun n fits => ?_⟩
  have code : encode (.dec (.symbol n)) = some (wordOf .dec (symbolField n)) := symbolWord_eq_some_iff.2 ⟨fits, rfl⟩
  refine ⟨_, ?_, code, decodeWord_of_encode code⟩
  rw [wordOf_toNat]
  exact congrArg _ (symbolOperand_symbolField fits)

end Sys2Proof
end

section
/-! PROOFS. The checked writes, and what each of the ten instructions does to the state and in its cycle (10_state.md rule
R25, 20_memory.md rule R53, files 40 to 43, 45_execution_cycle.md rules R160 to R167). -/

namespace Sys2Proof.Machine

/-! ### Checked writes -/

/-- ACC through its setter (R25), as one equation. -/
theorem regSet_acc (v : Int) (s : State) :
    regSet (.acc v) s =
      if s.cfg.valMin ≤ v ∧ v ≤ s.cfg.valMax then { s with acc := v } else { s with engine := .faulted .valueOutOfRange } := by
  simp [regSet, regPut, raise]

/-- PC through its setter (R25), as one equation. -/
theorem regSet_pc (v : Int) (s : State) :
    regSet (.pc v) s =
      if (s.cfg.pcMin : Int) ≤ v ∧ v ≤ (s.cfg.progSize : Int) - 1 then { s with pc := v.toNat }
      else { s with engine := .faulted .valueOutOfRange } := by
  simp [regSet, regPut, raise, pcMax]

/-- A legal value is read back: no PC in range is negative. -/
theorem regRead_regPut_same {r : RegValue} {s : State} (legal : regLegal s.cfg r = true) :
    regRead r.reg (regPut r s) = r := by
  cases r with
  | pc v =>
    obtain ⟨low, _⟩ : PcOk s.cfg v := of_decide_eq_true legal
    exact congrArg RegValue.pc (Int.toNat_of_nonneg (by omega))
  | acc v | dr v | zf b => rfl

theorem regRead_regPut_other {r : RegValue} {q : Reg} (s : State) (other : q ≠ r.reg) :
    regRead q (regPut r s) = regRead q s := by
  cases r <;> cases q <;> simp [RegValue.reg, regRead] at other ⊢

theorem regPut_engine (r : RegValue) (s : State) : (regPut r s).engine = s.engine := by cases r <;> rfl

theorem regRead_raise (k : FaultKind) (q : Reg) (s : State) : regRead q (raise k s) = regRead q s := by
  cases q <;> rfl

/-- Settles O25: both outcomes of `regSet_cases`, and the ranges that `regLegal` tests. -/
theorem regSetIsRangeChecked : Obligations.RegSetIsRangeChecked := by
  refine ⟨fun s r => ⟨fun legal => ?_, fun illegal => ?_⟩, fun c v => ?_, regLegal_zf⟩
  · rw [regSet_of_legal legal]
    exact ⟨regRead_regPut_same legal, fun q other => regRead_regPut_other s other, regPut_engine r s⟩
  · rw [regSet_of_illegal illegal]
    exact ⟨fun q => regRead_raise _ q s, rfl⟩
  · simp [pcMax]

/-- Settles O24: the checks in the order of `memWrite_cases`, then the laws of the cell memory. -/
theorem memWriteChecksValueThenAddress : Obligations.MemWriteChecksValueThenAddress := by
  intro s a v wf
  refine ⟨fun outValue => ?_, fun hmin hmax outAddress => ?_, fun hmin hmax low high => ?_⟩
  · rcases memWrite_cases a v s with ⟨_, h⟩ | ⟨legal, _⟩ | ⟨legal, _⟩
    · exact h
    all_goals omega
  · rcases memWrite_cases a v s with ⟨illegal, _⟩ | ⟨_, _, h⟩ | ⟨_, ok, _⟩
    · exact absurd ⟨hmin, hmax⟩ illegal
    · exact h
    · rw [addressOk_iff] at ok
      omega
  · have ok : AddressOk s.cfg a := (addressOk_iff s.cfg a).2 ⟨low, high⟩
    rw [memWrite_of_ok ⟨hmin, hmax⟩ ok]
    refine ⟨?_, fun b other => ?_⟩
    · rw [memRead_of_ok (s := cellPut _ _ s) ok, cellPut_mem, Memory.read_write_same _ _ wf.1]
    · by_cases okb : AddressOk s.cfg b
      · rw [memRead_of_ok (s := cellPut _ _ s) okb, memRead_of_ok okb, cellPut_mem,
          Memory.read_write_other _ _ (by omega)]
      · rw [memRead_of_invalid (s := cellPut _ _ s) okb, memRead_of_invalid okb]

/-! ### Declaration, load, store, exchange, arithmetic -/

/-- Settles O12: the three outcomes of `allocate_cases`. -/
theorem decDeclaresTheNextAddress : Obligations.DecDeclaresTheNextAddress := by
  refine ⟨fun s n => ?_, nameCoding_dec⟩
  rcases allocate_cases n s with ⟨declared, h⟩ | ⟨fresh, full, h⟩ | ⟨fresh, room, h⟩
  · rw [if_pos declared]
    simp [exec, execDec, h, raise]
  · rw [if_neg fresh, if_pos full]
    simp [exec, execDec, h, raise]
  · rw [if_neg fresh, if_neg (by omega)]
    simp [exec, execDec, h, emit, symbolPut, dataBase]

/-- Settles O13: the address check, then the cell, then the setter of ACC. -/
theorem ldaLoadsTheCell : Obligations.LdaLoadsTheCell := by
  refine ⟨fun s a => ?_, integerCoding_of (op := .lda) rfl fun _ => rfl⟩
  by_cases ok : AddressOk s.cfg a
  · rw [if_pos ((addressOk_iff s.cfg a).1 ok)]
    cases cell : s.mem.read a.toNat with
    | num v => simp [exec, execLda, memRead_of_ok ok, cell, regSet_acc]
    | line t => simp [exec, execLda, memRead_of_ok ok, cell, raise]
  · rw [if_neg (mt (addressOk_iff s.cfg a).2 ok)]
    simp [exec, execLda, memRead_of_invalid ok, raise]

/-- Settles O14: the setter of ACC. -/
theorem ldiSetsTheAccumulator : Obligations.LdiSetsTheAccumulator :=
  ⟨fun s v => congrArg Host.Outcome.next (regSet_acc v s), integerCoding_of (op := .ldi) rfl fun _ => rfl⟩

/-- Settles O15: the memory write of ACC, whose value check passes. -/
theorem strStoresTheAccumulator : Obligations.StrStoresTheAccumulator := by
  refine ⟨fun s a wf hmin hmax => ⟨fun low high => ?_, fun out => ?_⟩, integerCoding_of (op := .str) rfl fun _ => rfl⟩
  · have ok : AddressOk s.cfg a := (addressOk_iff s.cfg a).2 ⟨low, high⟩
    exact ⟨s.mem.write a.toNat (.num s.acc), congrArg Host.Outcome.next (memWrite_of_ok ⟨hmin, hmax⟩ ok),
      Memory.read_write_same _ _ wf.1, fun b other => Memory.read_write_other _ _ other⟩
  · obtain ⟨_, refuse, _⟩ := memWriteChecksValueThenAddress s a s.acc wf
    exact congrArg Host.Outcome.next (refuse hmin hmax out)

/-- Settles O16: both registers are assigned unchecked. -/
theorem xchSwapsTheRegisters : Obligations.XchSwapsTheRegisters := by
  refine ⟨fun s => rfl, fun s t h => ?_, plainCoding_of (op := .xch) rfl rfl⟩
  cases h
  rfl

/-- An arithmetic result (R141 to R143), as one equation. -/
theorem accumulate_eq (r : Int) (s : State) :
    accumulate r s =
      if s.cfg.valMin ≤ r ∧ r ≤ s.cfg.valMax then { s with acc := r, zf := decide (r = 0) } else s := rfl

/-- Settles O17: the arithmetic write of the sum. -/
theorem addWritesSumAndFlagOrNothing : Obligations.AddWritesSumAndFlagOrNothing :=
  ⟨fun s => congrArg Host.Outcome.next (accumulate_eq (s.acc + s.dr) s), plainCoding_of (op := .add) rfl rfl⟩

/-- Settles O18: the arithmetic write of the difference. -/
theorem subWritesDifferenceAndFlagOrNothing : Obligations.SubWritesDifferenceAndFlagOrNothing :=
  ⟨fun s => congrArg Host.Outcome.next (accumulate_eq (s.acc - s.dr) s), plainCoding_of (op := .sub) rfl rfl⟩

/-! ### The cycle -/

theorem step_of_exec {s t : State} {i : Instr} (running : s.engine = .running) (present : fetch s = some i)
    (effect : exec i s = .next t) : step s = .next (finishCycle i t) := by
  simp [step, running, present, effect, afterExec]

/-- The advance step of the last slot raises (R163, decision D13). -/
theorem finishCycle_of_lastSlot {i : Instr} {t : State} (running : t.engine = .running)
    (last : ¬ PcOk t.cfg ((t.pc : Int) + 1)) :
    finishCycle i t = { t with engine := .faulted .valueOutOfRange } := by
  rcases finishCycle_cases (i := i) running with ⟨_, h⟩ | ⟨room, _⟩
  · exact h
  · exact absurd room last

/-- The end of a cycle that completes: PC and CYCLES one up, then the halt check, then the budget check (R163 to R165). -/
theorem finishCycle_of_room {i : Instr} {t : State} (running : t.engine = .running)
    (room : PcOk t.cfg ((t.pc : Int) + 1)) :
    finishCycle i t =
      { t with
        pc := t.pc + 1
        cycles := t.cycles + 1
        engine :=
          if i = .hlt then .halted .normal
          else if t.cycles + 1 = t.cfg.budget then .halted .budget
          else .running } := by
  rcases finishCycle_cases (i := i) running with ⟨last, _⟩ | ⟨_, h⟩
  · exact absurd room last
  rw [h]
  unfold endChecks
  split_ifs <;> simp_all [halt, countCycle]

theorem step_of_terminal {s : State} (stopped : s.engine ≠ .running) : step s = .next s := by
  unfold step
  split <;> simp_all

/-- The instruction placed is the one fetched (log entry 10). -/
theorem fetch_placeAtPc (i : Instr) (s : State) : fetch (placeAtPc i s) = some i := by
  have long : s.pc < (s.program ++ List.replicate (s.pc + 1 - s.program.length) i).length := by
    rw [List.length_append, List.length_replicate]
    omega
  exact List.getElem?_set_self long

/-- Settles O26: the cycle after the effect, by whether the effect raised and whether PC can advance. -/
theorem stepRunsTheDecodedInstruction : Obligations.StepRunsTheDecodedInstruction := by
  refine ⟨fun s t i running present effect => ?_, fun s w i decoded => ?_⟩
  · rw [step_of_exec running present effect]
    exact ⟨fun stopped => by rw [finishCycle_of_terminal stopped],
      fun go last => by rw [finishCycle_of_lastSlot go last], fun go room => by rw [finishCycle_of_room go room]⟩
  · have placed : s.withFetchWord 32 w.toNat = placeAtPc i s := by
      simp [State.withFetchWord, decodeTableWord_toNat w i decoded]
    rw [placed]
    exact ⟨fetch_placeAtPc i s, rfl⟩

/-- Settles O29: the last two arms of `step`. -/
theorem terminalStatesAbsorb : Obligations.TerminalStatesAbsorb := fun _ stopped => step_of_terminal stopped

/-- Settles O30: every effect answers a next state, with or without a raise. -/
theorem everyStepAnswersANextState : Obligations.EveryStepAnswersANextState := by
  intro s
  by_cases running : s.engine = .running
  · cases present : fetch s with
    | none => exact ⟨_, step_of_fetch_none running present⟩
    | some i =>
      rcases exec_shape i s with ⟨t, effect, _⟩ | ⟨k, _, effect⟩ <;> exact ⟨_, step_of_exec running present effect⟩
  · exact ⟨s, step_of_terminal running⟩

/-! ### Jumps and halt -/

/-- The cycle of an instruction that writes a slot to PC: a jump or a taken JZS (R150, R153, R163). -/
theorem step_of_jump {s : State} {i : Instr} {a : Int} (running : s.engine = .running) (present : fetch s = some i)
    (noHalt : i ≠ .hlt) (effect : exec i s = .next (regSet (.pc a) s)) :
    ((s.cfg.pcMin : Int) ≤ a → a < (s.cfg.progSize : Int) - 1 → step s = .next
      { s with
        pc := a.toNat + 1
        cycles := s.cycles + 1
        engine := if s.cycles + 1 = s.cfg.budget then .halted .budget else .running }) ∧
    ((s.cfg.pcMin : Int) ≤ a → a = (s.cfg.progSize : Int) - 1 → step s = .next
      { s with pc := a.toNat, engine := .faulted .valueOutOfRange }) ∧
    (a < s.cfg.pcMin ∨ (s.cfg.progSize : Int) - 1 < a → step s = .next
      { s with engine := .faulted .valueOutOfRange }) := by
  rw [step_of_exec running present effect, regSet_pc]
  refine ⟨fun low high => ?_, fun low last => ?_, fun out => ?_⟩
  · have room : PcOk s.cfg ((a.toNat : Int) + 1) := by unfold PcOk pcMax; omega
    rw [if_pos (by omega), finishCycle_of_room (t := { s with pc := a.toNat }) running room]
    simp only [noHalt, if_false]
  · have full : ¬ PcOk s.cfg ((a.toNat : Int) + 1) := by unfold PcOk pcMax; omega
    rw [if_pos (by omega), finishCycle_of_lastSlot (t := { s with pc := a.toNat }) running full]
  · rw [if_neg (by omega), finishCycle_of_terminal (by simp)]

/-- Settles O19: the setter of PC, and the cycle of a jump. -/
theorem jmpResumesAfterItsOperand : Obligations.JmpResumesAfterItsOperand :=
  ⟨fun s a => congrArg Host.Outcome.next (regSet_pc a s),
    fun _ _ running present => step_of_jump running present (by simp) rfl, integerCoding_of (op := .jmp) rfl fun _ => rfl⟩

theorem exec_jzs_of_zero {s : State} (a : Int) (zero : s.zf = true) : exec (.jzs a) s = .next (regSet (.pc a) s) := by
  simp [exec, execJzs, zero]

theorem exec_jzs_of_nonzero {s : State} (a : Int) (nonzero : s.zf = false) : exec (.jzs a) s = .next s := by
  simp [exec, execJzs, nonzero]

/-- Settles O20: taken it is a jump, not taken its effect is nothing. -/
theorem jzsJumpsOnlyOnZero : Obligations.JzsJumpsOnlyOnZero := by
  refine ⟨fun s a => ?_, fun s a running present => ?_, integerCoding_of (op := .jzs) rfl fun _ => rfl⟩
  · by_cases zero : s.zf = true
    · rw [exec_jzs_of_zero a zero, regSet_pc, if_pos zero]
    · rw [exec_jzs_of_nonzero a (Bool.eq_false_iff.2 zero), if_neg zero]
  · have notTaken (nonzero : s.zf = false) := step_of_exec running present (exec_jzs_of_nonzero a nonzero)
    have taken (zero : s.zf = true) := step_of_jump running present (by simp) (exec_jzs_of_zero a zero)
    refine ⟨fun zero => (taken zero).1, fun zero => (taken zero).2.1, fun zero => (taken zero).2.2,
      fun nonzero room => ?_⟩
    rw [notTaken nonzero, finishCycle_of_room running room]
    simp only [reduceCtorEq, if_false]

/-- Settles O21: the signal, then the end of the cycle. -/
theorem hltSignalsAndHalts : Obligations.HltSignalsAndHalts := by
  refine ⟨fun s => rfl, fun s running present => ?_, plainCoding_of (op := .hlt) rfl rfl⟩
  rw [step_of_exec running present rfl]
  refine ⟨fun room => ?_, fun last => ?_⟩
  · rw [finishCycle_of_room (t := emit .haltSignal s) running room, if_pos rfl]
    rfl
  · rw [finishCycle_of_lastSlot (t := emit .haltSignal s) running last]
    rfl

end Sys2Proof.Machine
end

section
/-! PROOFS. What an effect and a step leave unchanged, and what the count of cycles tells (10_state.md rules R22 to R34,
20_memory.md rules R57, R63, R65, 70_reset_and_hazards.md rules R244, R245). -/

namespace Sys2Proof.Machine

/-! ### Frames of the effects -/

/-- `exec_shape` read from a given answer: the effect has taken its shape, or only ENGINE has changed. -/
theorem exec_next_cases {i : Instr} {s t : State} (h : exec i s = .next t) :
    EffectShape s i t ∨ ∃ k, t = raise k s := by
  rcases exec_shape i s with ⟨u, effect, shape⟩ | ⟨k, _, effect⟩
  · rw [effect] at h
    cases h
    exact .inl shape
  · rw [effect] at h
    cases h
    exact .inr ⟨k, rfl⟩

/-- Only a jump that is taken writes PC (R26). -/
theorem EffectShape.pc_eq {s t : State} {i : Instr} (shape : EffectShape s i t) (noJump : ∀ a, i ≠ .jmp a)
    (notTaken : ∀ a, i = .jzs a → s.zf = false) : t.pc = s.pc := by
  cases shape with
  | jump a => exact absurd rfl (noJump a)
  | jumpTaken a zero => simp [notTaken a rfl] at zero
  | _ => rfl

/-- Settles O34: by the shape of the effect; a raise changes ENGINE alone. -/
theorem registerInstructionsFrame : Obligations.RegisterInstructionsFrame := by
  intro s t i noDeclare noStore h
  rcases exec_next_cases h with shape | ⟨k, rfl⟩
  · cases shape with
    | declare n => exact absurd rfl (noDeclare n)
    | store a => exact absurd rfl (noStore a)
    | _ => simp
  · simp

/-- Settles O35: the store writes one cell, and a raise changes ENGINE alone. -/
theorem storeFrame : Obligations.StoreFrame := by
  intro s t a h
  rcases exec_next_cases h with shape | ⟨k, rfl⟩
  · cases shape with
    | store _ ok =>
      refine ⟨fun x address b other => ?_, by simp⟩
      rw [effectiveAddress_eq] at address
      exact Memory.read_write_other _ _ (by omega)
  · simp

/-- Settles O36: the allocation writes the symbol table, and a raise changes ENGINE alone. -/
theorem declareFrame : Obligations.DeclareFrame := by
  intro s t n h
  rcases exec_next_cases h with shape | ⟨k, rfl⟩
  · cases shape
    simp
  · simp

/-! ### The fields that only an effect writes -/

/-- Two machines that differ at most in PC, CYCLES and ENGINE, the fields that the cycle itself writes (R160). -/
structure SameData (s t : State) : Prop where
  acc : t.acc = s.acc
  dr : t.dr = s.dr
  zf : t.zf = s.zf
  mem : t.mem = s.mem
  symtab : t.symtab = s.symtab
  nalloc : t.nalloc = s.nalloc
  program : t.program = s.program
  cfg : t.cfg = s.cfg
  trace : t.trace = s.trace

theorem SameData.refl (s : State) : SameData s s := ⟨rfl, rfl, rfl, rfl, rfl, rfl, rfl, rfl, rfl⟩

theorem sameData_raise (k : FaultKind) (s : State) : SameData s (raise k s) :=
  ⟨rfl, rfl, rfl, rfl, rfl, rfl, rfl, rfl, rfl⟩

theorem sameData_endCycle (i : Instr) (s : State) : SameData s (endChecks i (countCycle { s with pc := s.pc + 1 })) := by
  unfold endChecks
  split_ifs <;> exact ⟨rfl, rfl, rfl, rfl, rfl, rfl, rfl, rfl, rfl⟩

/-- But for PC, CYCLES and ENGINE a step does nothing, or what the effect of the instruction fetched does. -/
theorem step_data {s t : State} (h : step s = .next t) :
    SameData s t ∨ ∃ i u, fetch s = some i ∧ EffectShape s i u ∧ SameData u t := by
  cases step_shape h with
  | terminal => exact .inl (.refl s)
  | missing | raised => exact .inl (sameData_raise _ s)
  | lastSlot i u _ present _ shape => exact .inr ⟨i, u, present, shape, sameData_raise _ u⟩
  | completed i u _ present _ shape => exact .inr ⟨i, u, present, shape, sameData_endCycle i u⟩

theorem step_program_cfg {s t : State} (h : step s = .next t) : t.program = s.program ∧ t.cfg = s.cfg := by
  rcases step_data h with same | ⟨i, u, _, shape, same⟩
  · exact ⟨same.program, same.cfg⟩
  · obtain ⟨_, _, program, cfg⟩ := shape.fixed
    exact ⟨same.program.trans program, same.cfg.trans cfg⟩

/-- Settles O37: no effect writes PROGRAM or the parameters; STR writes a cell (R63). -/
theorem programNeverChanges : Obligations.ProgramNeverChanges := by
  refine ⟨fun s t h => step_program_cfg h, fun s t a low high wf hmin hmax h => ?_⟩
  have ok : AddressOk s.cfg a := (addressOk_iff s.cfg a).2 ⟨low, by omega⟩
  obtain rfl : memWrite a s.acc s = t := Host.Outcome.next.inj h
  rw [memWrite_of_ok ⟨hmin, hmax⟩ ok]
  exact ⟨Memory.read_write_same _ _ wf.1, rfl⟩

/-- Settles O38: of the effects only the two arithmetic writes change ZF. -/
theorem onlyArithmeticChangesZeroFlag : Obligations.OnlyArithmeticChangesZeroFlag := by
  intro s t h changed
  rcases step_data h with same | ⟨i, u, present, shape, same⟩
  · exact absurd same.zf changed
  · rw [same.zf] at changed ⊢
    rw [same.acc]
    cases shape with
    | sum => exact ⟨.inl present, rfl⟩
    | difference => exact ⟨.inr present, rfl⟩
    | _ => exact absurd rfl changed

/-- Settles O39: of the effects only the exchange changes DR. -/
theorem onlyExchangeChangesDataRegister : Obligations.OnlyExchangeChangesDataRegister := by
  intro s t h changed
  rcases step_data h with same | ⟨i, u, present, shape, same⟩
  · exact absurd same.dr changed
  · rw [same.dr] at changed ⊢
    cases shape with
    | exchange => exact ⟨present, rfl⟩
    | _ => exact absurd rfl changed

/-- Settles O40: of the effects only the store changes memory, and it changes the cell of its address alone. -/
theorem onlyStoreChangesACell : Obligations.OnlyStoreChangesACell := by
  intro s t b wf h changed
  rcases step_data h with same | ⟨i, u, present, shape, same⟩
  · rw [same.mem] at changed
    exact absurd rfl changed
  · rw [same.mem] at changed ⊢
    cases shape with
    | store a ok =>
      have here : b = a.toNat := by
        by_contra other
        exact changed (Memory.read_write_other _ _ other)
      obtain rfl : a = b := by omega
      exact ⟨present, Memory.read_write_same _ _ wf.1⟩
    | _ => exact absurd rfl changed

/-- Settles O41: of the effects only the allocation changes the symbol table. -/
theorem symbolTableOnlyGrows : Obligations.SymbolTableOnlyGrows := by
  intro s t h
  rcases step_data h with same | ⟨i, u, present, shape, same⟩
  · exact .inl ⟨same.symtab, same.nalloc⟩
  · rw [same.symtab, same.nalloc]
    cases shape with
    | declare n fresh => exact .inr ⟨n, present, fresh, rfl, rfl⟩
    | _ => exact .inl ⟨rfl, rfl⟩

/-- Settles O42: of the effects only the declaration and the halt signal emit an event. -/
theorem traceGrowsByAtMostOneEvent : Obligations.TraceGrowsByAtMostOneEvent := by
  intro s t h
  rcases step_data h with same | ⟨i, u, present, shape, same⟩
  · exact .inl same.trace
  · rw [same.trace, same.symtab]
    cases shape with
    | declare n => exact .inr (.inl ⟨n, _, present, rfl, by simp⟩)
    | haltSignal => exact .inr (.inr ⟨present, rfl⟩)
    | _ => exact .inl rfl

/-! ### Counting cycles -/

/-- The engine after a cycle of `i` that has counted up to `count` (R164, R165). -/
def endEngine (i : Instr) (count budget : Nat) : Engine :=
  if i = .hlt then .halted .normal else if count = budget then .halted .budget else .running

/-- `endEngine` is what the two checks leave in ENGINE of a running machine. -/
theorem endChecks_endEngine {i : Instr} {s : State} (running : s.engine = .running) :
    (endChecks i s).engine = endEngine i s.cycles s.cfg.budget ∧ (endChecks i s).cycles = s.cycles ∧
      (endChecks i s).pc = s.pc := by
  unfold endChecks endEngine
  split_ifs <;> simp [running]

/-- From a running state a step faults and counts nothing, or completes and counts one (R165, R210). -/
theorem step_counts {s t : State} (running : s.engine = .running) (h : step s = .next t) :
    (∃ k, t.engine = .faulted k ∧ t.cycles = s.cycles) ∨
    ∃ i, fetch s = some i ∧ t.cycles = s.cycles + 1 ∧ 0 < t.pc ∧
      t.engine = endEngine i (s.cycles + 1) s.cfg.budget := by
  cases step_shape h with
  | terminal stopped => exact absurd running stopped
  | missing | raised => exact .inl ⟨_, rfl, rfl⟩
  | lastSlot i u _ _ _ shape =>
    obtain ⟨_, cycles, _, _⟩ := shape.fixed
    exact .inl ⟨_, rfl, cycles⟩
  | completed i u _ present _ shape =>
    obtain ⟨engine, cycles, _, cfg⟩ := shape.fixed
    obtain ⟨hEngine, hCycles, hPc⟩ :=
      endChecks_endEngine (i := i) (s := countCycle { u with pc := u.pc + 1 }) (engine.trans running)
    refine .inr ⟨i, present, ?_, ?_, ?_⟩
    · rw [hCycles, countCycle_cycles, cycles]
    · rw [hPc, countCycle_pc]
      exact Nat.succ_pos u.pc
    · rw [hEngine, countCycle_cycles, countCycle_cfg, cycles, cfg]

theorem endEngine_cases (i : Instr) (count budget : Nat) :
    (i = .hlt ∧ endEngine i count budget = .halted .normal) ∨
    (i ≠ .hlt ∧ count = budget ∧ endEngine i count budget = .halted .budget) ∨
    (i ≠ .hlt ∧ count ≠ budget ∧ endEngine i count budget = .running) := by
  unfold endEngine
  split_ifs <;> simp_all

/-- Settles O31: by the two outcomes of `step_counts` and the three ends of a cycle that completes. -/
theorem cyclesCountCompletedCycles : Obligations.CyclesCountCompletedCycles := by
  intro s t running h
  rcases step_counts running h with ⟨k, fault, cycles⟩ | ⟨i, present, cycles, _, engine⟩
  · simp [fault, cycles]
  · rw [present, cycles]
    rcases endEngine_cases i (s.cycles + 1) s.cfg.budget with ⟨hlt, ends⟩ | ⟨other, count, ends⟩ | ⟨_, count, ends⟩ <;>
      rw [ends] at engine
    · simp [engine, hlt]
    · simp [engine, other, count]
    · simp [engine, count]

/-- Settles O33: a step that completes has advanced PC. -/
theorem slotZeroIsNeverReachedByACycle : Obligations.SlotZeroIsNeverReachedByACycle := by
  intro s t running h noFault
  rcases step_counts running h with ⟨k, fault, _⟩ | ⟨i, _, _, pc, _⟩
  · exact absurd fault (noFault k)
  · exact pc

/-- Settles O32: only a taken jump moves PC away from the slot that the advance step cannot leave. -/
theorem lastSlotCannotComplete : Obligations.LastSlotCannotComplete := by
  intro s i running last fetched noJump notTaken
  obtain ⟨t, h⟩ := everyStepAnswersANextState s
  cases step_shape h with
  | terminal stopped => exact absurd running stopped
  | missing _ absent => simp [fetched] at absent
  | raised _ k => exact ⟨_, k, h, rfl, rfl, rfl⟩
  | lastSlot j u _ present _ shape =>
    obtain rfl : i = j := Option.some.inj (fetched.symm.trans present)
    obtain ⟨_, cycles, _, _⟩ := shape.fixed
    exact ⟨_, _, h, rfl, shape.pc_eq noJump notTaken, cycles⟩
  | completed j u _ present _ shape room =>
    obtain rfl : i = j := Option.some.inj (fetched.symm.trans present)
    obtain ⟨_, _, _, cfg⟩ := shape.fixed
    rw [cfg, shape.pc_eq noJump notTaken] at room
    omega

end Sys2Proof.Machine
end

section
/-! PROOFS. Reset and load: what load accepts and refuses, and the launch state (10_state.md rule R38, 30_encoding.md rules
R87, R88, R95, 70_reset_and_hazards.md rules R240, R241). -/

namespace Sys2Proof

/-! ### Decoding a whole program -/

/-- The lines of a program are those that are not blank, each with its own decoding (R87). -/
theorem decodeLines_ok {lines : List Text} {p : List (Instr × Text)} (h : decodeLines lines = .ok p) :
    p.map Prod.snd = lines.filter (fun l => !l.all isBlank) ∧ (∀ e ∈ p, decodeLine e.2 = .ok (some e.1)) ∧
      ∀ l ∈ lines, ∃ o, decodeLine l = .ok o := by
  induction lines generalizing p with
  | nil => cases h; simp
  | cons l ls ih =>
    rw [decodeLines] at h
    cases line : decodeLine l with
    | error e => simp [line] at h
    | ok o =>
      rcases decodeLine_cases line with ⟨blank, rfl⟩ | ⟨full, i, rfl⟩
      · simp only [line] at h
        obtain ⟨texts, decoded, all⟩ := ih h
        exact ⟨by simp [blank, texts], decoded, List.forall_mem_cons.2 ⟨⟨none, line⟩, all⟩⟩
      · cases rest : decodeLines ls with
        | error e => simp [line, rest, Except.map] at h
        | ok q =>
          simp only [line, rest, Except.map, Except.ok.injEq] at h
          obtain ⟨texts, decoded, all⟩ := ih rest
          subst h
          exact ⟨by simp [full, texts], List.forall_mem_cons.2 ⟨line, decoded⟩,
            List.forall_mem_cons.2 ⟨⟨some i, line⟩, all⟩⟩

theorem decodeLines_isOk {lines : List Text} (all : ∀ l ∈ lines, ∃ o, decodeLine l = .ok o) :
    ∃ p, decodeLines lines = .ok p := by
  induction lines with
  | nil => exact ⟨[], rfl⟩
  | cons l ls ih =>
    obtain ⟨⟨o, line⟩, rest⟩ := List.forall_mem_cons.1 all
    obtain ⟨p, lines⟩ := ih rest
    cases o <;> simp [decodeLines, line, lines, Except.map]

/-- The first line that does not decode names the error (R88). -/
theorem decodeLines_of_error {before after : List Text} {l : Text} {e : LoadError}
    (good : ∀ b ∈ before, ∃ o, decodeLine b = .ok o) (bad : decodeLine l = .error e) :
    decodeLines (before ++ l :: after) = .error e := by
  induction before with
  | nil => simp [decodeLines, bad]
  | cons b bs ih =>
    obtain ⟨⟨o, line⟩, rest⟩ := List.forall_mem_cons.1 good
    cases o <;> simp [decodeLines, line, ih rest, Except.map]

theorem decodeWords_ok {words : List Word} {p : List (Instr × Word)} (h : decodeWords words = .ok p) :
    p.map Prod.snd = words ∧ ∀ e ∈ p, decodeWord e.2 = .ok e.1 := by
  induction words generalizing p with
  | nil => cases h; simp
  | cons w ws ih =>
    rw [decodeWords] at h
    cases word : decodeWord w with
    | error e => simp [word] at h
    | ok i =>
      cases rest : decodeWords ws with
      | error e => simp [word, rest, Except.map] at h
      | ok q =>
        simp only [word, rest, Except.map, Except.ok.injEq] at h
        obtain ⟨words, decoded⟩ := ih rest
        subst h
        exact ⟨by simp [words], List.forall_mem_cons.2 ⟨word, decoded⟩⟩

theorem decodeWords_isOk {words : List Word} (all : ∀ w ∈ words, ∃ i, decodeWord w = .ok i) :
    ∃ p, decodeWords words = .ok p := by
  induction words with
  | nil => exact ⟨[], rfl⟩
  | cons w ws ih =>
    obtain ⟨⟨i, word⟩, rest⟩ := List.forall_mem_cons.1 all
    obtain ⟨p, words⟩ := ih rest
    simp [decodeWords, word, words, Except.map]

/-- One invalid word refuses the words with `UnknownOpcode` (R95). -/
theorem decodeWords_of_invalid {words : List Word} {w : Word} (mem : w ∈ words) (invalid : ∀ i, decodeWord w ≠ .ok i) :
    decodeWords words = .error .unknownOpcode := by
  induction words with
  | nil => cases mem
  | cons v ws ih =>
    rw [decodeWords]
    rcases decodeWord_cases v with ⟨i, valid⟩ | refused
    · rcases List.mem_cons.1 mem with rfl | later
      · exact absurd valid (invalid i)
      · simp [valid, ih later, Except.map]
    · simp [refused]

end Sys2Proof

namespace Sys2Proof.Machine

/-! ### Reset -/

/-- Settles O44: the fields of the reset state, which `hostReset` takes over but for two. -/
theorem resetLeavesTheSpecsValues : Obligations.ResetLeavesTheSpecsValues :=
  ⟨⟨rfl, rfl, rfl, rfl, Memory.read_nil, rfl, rfl, rfl, rfl, rfl, rfl, rfl, rfl, rfl, rfl, rfl, rfl, rfl, rfl, rfl⟩,
    fun _ => ⟨rfl, rfl, rfl, rfl, Memory.read_nil, rfl, rfl, rfl, rfl, rfl, rfl, rfl⟩⟩

/-- Settles O47: each clause of the invariant, computed. -/
theorem resetMeetsInvariant : Obligations.ResetMeetsInvariant :=
  { config := by decide
    program := by decide
    registers := by decide
    memory := by decide
    symbols := by decide
    cycles := by decide }

theorem nil_wf : Memory.wf [] := by decide

theorem mem_of_mayLoad {s : State} (fresh : MayLoad s) : s.mem = [] := congrArg State.mem fresh

/-! ### Install -/

theorem install_ok {p : List (Instr × Payload)} {s t : State} (h : install p s = .ok t) :
    p.length ≤ s.cfg.progSize ∧
      t = { s with program := p.map Prod.fst, mem := writeLines 0 (p.map Prod.snd) s.mem } := by
  rcases install_cases p s with ⟨_, long⟩ | ⟨fits, ok⟩
  · simp [long] at h
  · exact ⟨fits, (Except.ok.inj (ok.symm.trans h)).symm⟩

theorem install_isOk {p : List (Instr × Payload)} {s : State} (fits : p.length ≤ s.cfg.progSize) :
    ∃ t, install p s = .ok t := by
  rcases install_cases p s with ⟨long, _⟩ | ⟨_, ok⟩
  · omega
  · exact ⟨_, ok⟩

theorem install_tooLong {p : List (Instr × Payload)} {s : State} (long : s.cfg.progSize < p.length) :
    install p s = .error .programTooLong := by
  rcases install_cases p s with ⟨_, refused⟩ | ⟨fits, _⟩
  · exact refused
  · omega

/-- The launch state (R66, R241): the program, the line of each slot in its cell, Num(0) above them. Lines and words are
installed alike, each kind under its own payload. -/
theorem install_launch {α : Type} {payload : α → Payload} {p : List (Instr × α)} {s t : State} (fresh : MayLoad s)
    (h : install (p.map fun e => (e.1, payload e.2)) s = .ok t) :
    p.length ≤ s.cfg.progSize ∧ t = { s with program := p.map Prod.fst, mem := t.mem } ∧
      (∀ (k : Nat) (e : Instr × α), p[k]? = some e → t.mem.read k = .line (payload e.2)) ∧
      ∀ a, p.length ≤ a → t.mem.read a = .num 0 := by
  obtain ⟨fits, state⟩ := install_ok h
  rw [List.length_map] at fits
  have program : t.program = p.map Prod.fst := by simp [state]
  have mem : t.mem = writeLines 0 (p.map fun e => payload e.2) [] := by
    simp [state, mem_of_mayLoad fresh, Function.comp_def]
  refine ⟨fits, by rw [← program, state], fun k e slot => ?_, fun a above => ?_⟩
  · simp [mem, read_writeLines 0 _ nil_wf, slot]
  · simp [mem, read_writeLines 0 _ nil_wf, above, blankCell]

/-! ### Load -/

theorem loadLines_of_decodeLines {lines : List Text} {p : List (Instr × Text)} (h : decodeLines lines = .ok p)
    (s : State) : loadLines lines s = install (p.map fun e => (e.1, .line e.2)) s := by
  simp [loadLines, h]

theorem loadWords_of_decodeWords {words : List Word} {p : List (Instr × Word)} (h : decodeWords words = .ok p)
    (s : State) : loadWords words s = install (p.map fun e => (e.1, .word e.2)) s := by
  simp [loadWords, h]

theorem loadLines_ok {lines : List Text} {s t : State} (h : loadLines lines s = .ok t) :
    ∃ p, decodeLines lines = .ok p ∧ install (p.map fun e => (e.1, .line e.2)) s = .ok t := by
  cases decoded : decodeLines lines with
  | error e => simp [loadLines, decoded] at h
  | ok p => exact ⟨p, rfl, loadLines_of_decodeLines decoded s ▸ h⟩

theorem loadWords_ok {words : List Word} {s t : State} (h : loadWords words s = .ok t) :
    ∃ p, decodeWords words = .ok p ∧ install (p.map fun e => (e.1, .word e.2)) s = .ok t := by
  cases decoded : decodeWords words with
  | error e => simp [loadWords, decoded] at h
  | ok p => exact ⟨p, rfl, loadWords_of_decodeWords decoded s ▸ h⟩

/-- A program has a slot for each line that is not blank (R87). -/
theorem length_of_decodeLines {lines : List Text} {p : List (Instr × Text)} (h : decodeLines lines = .ok p) :
    p.length = (lines.filter fun l => !l.all isBlank).length := by
  obtain ⟨texts, _⟩ := decodeLines_ok h
  rw [← texts, List.length_map]

theorem length_of_decodeWords {words : List Word} {p : List (Instr × Word)} (h : decodeWords words = .ok p) :
    p.length = words.length := by
  obtain ⟨same, _⟩ := decodeWords_ok h
  rw [← same, List.length_map]

theorem loadLines_isOk {lines : List Text} {p : List (Instr × Text)} {s : State} (h : decodeLines lines = .ok p)
    (fits : p.length ≤ s.cfg.progSize) : ∃ t, loadLines lines s = .ok t := by
  rw [loadLines_of_decodeLines h]
  exact install_isOk (by rwa [List.length_map])

/-- Settles O45: the launch states of text and words, and what is decoded and fits is installed. -/
theorem loadGivesTheLaunchState : Obligations.LoadGivesTheLaunchState := by
  refine ⟨fun s t lines fresh h => ?_, fun s t words fresh h => ?_, fun s lines p decoded fits => loadLines_isOk decoded fits,
    fun s lines all fits => ?_, fun s words all fits => ?_⟩
  · obtain ⟨p, decoded, installed⟩ := loadLines_ok h
    obtain ⟨fits, state, lineCells, blankCells⟩ := install_launch fresh installed
    obtain ⟨texts, own, _⟩ := decodeLines_ok decoded
    exact ⟨p, decoded, fits, texts, own, state, lineCells, blankCells⟩
  · obtain ⟨p, decoded, installed⟩ := loadWords_ok h
    obtain ⟨fits, state, lineCells, blankCells⟩ := install_launch fresh installed
    obtain ⟨same, own⟩ := decodeWords_ok decoded
    have program : t.program = p.map Prod.fst := congrArg State.program state
    rw [← length_of_decodeWords decoded, program]
    refine ⟨List.length_map _, fits, state, fun k w slot => ?_, blankCells⟩
    rw [← same, List.getElem?_map] at slot
    obtain ⟨e, entry, rfl⟩ := Option.map_eq_some_iff.1 slot
    exact ⟨lineCells k e entry, e.1, own e (List.mem_of_getElem? entry), by rw [List.getElem?_map, entry]; rfl⟩
  · obtain ⟨p, decoded⟩ := decodeLines_isOk all
    exact loadLines_isOk decoded (length_of_decodeLines decoded ▸ fits)
  · obtain ⟨p, decoded⟩ := decodeWords_isOk all
    rw [loadWords_of_decodeWords decoded]
    exact install_isOk (by rwa [List.length_map, length_of_decodeWords decoded])

/-- Settles O46: a refusal of the decoder is the refusal of the load, and a program that does not fit is not installed. -/
theorem loadRefusesTheWholeProgram : Obligations.LoadRefusesTheWholeProgram := by
  refine ⟨fun s before after l e good bad => ?_, fun s lines l e mem bad => ?_, fun s lines all long => ?_,
    fun s words w mem invalid => ?_, fun s words all long => ?_⟩
  · simp [loadLines, decodeLines_of_error good bad]
  · cases h : loadLines lines s with
    | error e' => exact ⟨e', rfl⟩
    | ok t =>
      obtain ⟨p, decoded, _⟩ := loadLines_ok h
      obtain ⟨_, _, all⟩ := decodeLines_ok decoded
      obtain ⟨o, good⟩ := all l mem
      simp [bad] at good
  · obtain ⟨p, decoded⟩ := decodeLines_isOk all
    rw [loadLines_of_decodeLines decoded]
    exact install_tooLong (by rwa [List.length_map, length_of_decodeLines decoded])
  · simp [loadWords, decodeWords_of_invalid mem invalid]
  · obtain ⟨p, decoded⟩ := decodeWords_isOk all
    rw [loadWords_of_decodeWords decoded]
    exact install_tooLong (by rwa [List.length_map, length_of_decodeWords decoded])

end Sys2Proof.Machine
end

section
/-! PROOFS. The invariant of the machine, which effect raises what, and the end of every run (10_state.md section 5,
60_exceptions.md section 6, 45_execution_cycle.md sections 2 and 3). -/

namespace Sys2Proof.Machine

/-! ### What an effect keeps of the invariant -/

/-- A number that is read from a cell is in range (R37 (c)): it is listed, or it is the 0 of a blank cell. -/
theorem Inv.valueOk_of_read {s : State} (inv : Inv s) {a : Nat} {v : Int} (cell : s.mem.read a = .num v) :
    ValueOk s.cfg v := by
  rcases Memory.read_cases s.mem a with blank | listed
  · obtain ⟨_, _, low, high, _⟩ := inv.config
    obtain rfl : v = 0 := Cell.num.inj (cell.symm.trans blank)
    exact ⟨low, high⟩
  · have ok := inv.memory.2 _ listed
    simp only [cell, cellOk, Bool.and_eq_true, decide_eq_true_eq] at ok
    exact ok.2

theorem pcOk_toNat {c : Config} {a : Int} (legal : PcOk c a) : PcOk c (a.toNat : Int) := by
  obtain ⟨low, high⟩ := legal
  exact ⟨by omega, by omega⟩

/-- R37 (a), (b): each write of a register is checked, or copies the other register. -/
theorem EffectShape.registersOk {s t : State} {i : Instr} (shape : EffectShape s i t) (ok : RegistersOk s) :
    RegistersOk t := by
  obtain ⟨acc, dr, pc⟩ := ok
  cases shape with
  | declare | store | sumNothing | differenceNothing | jumpNotTaken | haltSignal => exact ⟨acc, dr, pc⟩
  | load _ _ _ _ legal => exact ⟨legal, dr, pc⟩
  | loadImmediate _ legal | sum legal | difference legal => exact ⟨legal, dr, pc⟩
  | exchange => exact ⟨dr, acc, pc⟩
  | jump _ legal | jumpTaken _ _ legal => exact ⟨acc, dr, pcOk_toNat legal⟩

/-- R37 (c), (e): the one write of a cell has its address and its value checked. -/
theorem EffectShape.memoryOk {s t : State} {i : Instr} (shape : EffectShape s i t) (ok : MemoryOk s) : MemoryOk t := by
  cases shape with
  | store a address legal =>
    obtain ⟨wf, cells⟩ := ok
    refine ⟨Memory.write_wf _ _ wf, fun e he => ?_⟩
    rcases Memory.mem_write he with ⟨rfl, _⟩ | old
    · obtain ⟨low, high⟩ := address
      simp only [cellOk, Bool.and_eq_true, decide_eq_true_eq]
      exact ⟨by simp only [cellPut_cfg]; omega, legal⟩
    · exact cells e old
  | _ => exact ok

/-- R37 (d): a declaration adds a fresh name at the next address, where there is room. -/
theorem EffectShape.symbolsOk {s t : State} {i : Instr} (shape : EffectShape s i t) (ok : SymbolsOk s) :
    SymbolsOk t := by
  cases shape with
  | declare n fresh room =>
    obtain ⟨distinct, addresses, _⟩ := ok
    refine ⟨?_, ?_, room⟩
    · simp only [declaredNames, emit_symtab, symbolPut_symtab, List.map_append, List.map_cons, List.map_nil]
      exact List.Nodup.append distinct (List.nodup_singleton n) (List.disjoint_singleton.2 fresh)
    · simp [addresses, List.range_succ]
  | _ => exact ok

theorem EffectShape.inv {s t : State} {i : Instr} (shape : EffectShape s i t) (inv : Inv s) : Inv t := by
  obtain ⟨engine, cycles, program, cfg⟩ := shape.fixed
  exact
    { config := cfg ▸ inv.config
      program := program ▸ cfg ▸ inv.program
      registers := shape.registersOk inv.registers
      memory := shape.memoryOk inv.memory
      symbols := shape.symbolsOk inv.symbols
      cycles := by simpa only [CyclesOk, engine, cycles, cfg] using inv.cycles }

/-! ### What a step keeps -/

/-- What the cycle itself writes has its own clauses; the others carry over. -/
theorem SameData.inv {s t : State} (same : SameData s t) (inv : Inv s) (pc : PcOk t.cfg t.pc) (cycles : CyclesOk t) :
    Inv t := by
  obtain ⟨acc, dr, _⟩ := inv.registers
  exact
    { config := same.cfg ▸ inv.config
      program := same.program ▸ same.cfg ▸ inv.program
      registers := ⟨same.cfg ▸ same.acc ▸ acc, same.cfg ▸ same.dr ▸ dr, pc⟩
      memory := by simpa only [MemoryOk, same.mem, same.cfg, same.program] using inv.memory
      symbols := by simpa only [SymbolsOk, declaredNames, same.symtab, same.nalloc, same.cfg] using inv.symbols
      cycles := cycles }

theorem endCycle_pc (i : Instr) (s : State) : (endChecks i (countCycle { s with pc := s.pc + 1 })).pc = s.pc + 1 := by
  unfold endChecks
  split_ifs <;> rfl

/-- R37 (b): PC is written by a checked jump and by the checked advance step. -/
theorem step_pcOk {s t : State} (ok : RegistersOk s) (h : step s = .next t) : PcOk t.cfg t.pc := by
  have ⟨_, _, pc⟩ := ok
  cases step_shape h with
  | terminal | missing | raised => exact pc
  | lastSlot i u _ _ _ shape =>
    obtain ⟨_, _, pc⟩ := shape.registersOk ok
    exact pc
  | completed i u _ _ _ shape room =>
    rw [endCycle_pc, (sameData_endCycle i u).cfg]
    exact room

/-- R37 (f): a running machine has a cycle left, and the cycle that reaches the budget stops it. -/
theorem step_cyclesOk {s t : State} (ok : CyclesOk s) (h : step s = .next t) : CyclesOk t := by
  by_cases running : s.engine = .running
  · obtain ⟨within, below⟩ := ok
    have cycleLeft : s.cycles ≠ s.cfg.budget := fun full => below full running
    obtain ⟨_, cfg⟩ := step_program_cfg h
    rw [CyclesOk, cfg]
    rcases step_counts running h with ⟨k, fault, cycles⟩ | ⟨i, _, cycles, _, engine⟩
    · exact ⟨by omega, by simp [fault]⟩
    · refine ⟨by omega, fun full => ?_⟩
      rw [engine]
      rcases endEngine_cases i (s.cycles + 1) s.cfg.budget with ⟨_, ends⟩ | ⟨_, _, ends⟩ | ⟨_, below, _⟩
      · simp [ends]
      · simp [ends]
      · omega
  · obtain rfl : s = t := Host.Outcome.next.inj ((step_of_terminal running).symm.trans h)
    exact ok

/-- Settles O49: the effect keeps the invariant, and so do the writes of the cycle. -/
theorem stepKeepsInvariant : Obligations.StepKeepsInvariant := by
  intro s t inv h
  have pc := step_pcOk inv.registers h
  have cycles := step_cyclesOk inv.cycles h
  rcases step_data h with same | ⟨i, u, _, shape, same⟩
  · exact same.inv inv pc cycles
  · exact same.inv (shape.inv inv) pc cycles

/-! ### The invariant after a load -/

/-- The entries that a load lists: one Line for each slot of the program. -/
theorem mem_writeLines {slot : Nat} {ts : List Payload} {m : Memory} {e : Nat × Cell}
    (h : e ∈ writeLines slot ts m) : e ∈ m ∨ (e.1 < slot + ts.length ∧ ∃ t, e.2 = .line t) := by
  induction ts generalizing slot m with
  | nil => exact .inl h
  | cons t ts ih =>
    rw [List.length_cons]
    rcases ih h with written | ⟨below, line⟩
    · rcases Memory.mem_write written with ⟨rfl, _⟩ | old
      · exact .inr ⟨by simp only; omega, t, rfl⟩
      · exact .inl old
    · exact .inr ⟨by omega, line⟩

theorem install_inv {p : List (Instr × Payload)} {s t : State} (fresh : MayLoad s) (config : ConfigOk s.cfg)
    (h : install p s = .ok t) : Inv t ∧ NamesFromProgram t := by
  obtain ⟨fits, rfl⟩ := install_ok h
  obtain ⟨pcMin, slots, low, high, budget⟩ := config
  have inSlots : PcOk s.cfg 0 := ⟨by omega, by unfold pcMax; omega⟩
  rw [fresh]
  refine ⟨{
    config := ⟨pcMin, slots, low, high, budget⟩
    program := (List.length_map _).trans_le fits
    registers := ⟨⟨low, high⟩, ⟨low, high⟩, inSlots⟩
    memory := ⟨writeLines_wf 0 _ nil_wf, fun e he => ?_⟩
    symbols := ⟨List.nodup_nil, rfl, Nat.zero_le _⟩
    cycles := ⟨Nat.zero_le _, fun full => absurd full (Nat.ne_of_lt budget)⟩ }, fun n hn => by cases hn⟩
  obtain ⟨a, c⟩ := e
  rcases mem_writeLines he with old | ⟨below, t, rfl⟩
  · cases old
  · rw [Nat.zero_add, List.length_map] at below
    have address : a < addrLimit s.cfg := Nat.lt_of_lt_of_le below (Nat.le_trans fits (Nat.le_add_right _ _))
    have slot : a < (p.map Prod.fst).length := below.trans_eq (List.length_map _).symm
    exact Bool.and_eq_true_iff.2 ⟨decide_eq_true address, decide_eq_true slot⟩

/-- Settles O48: text and words are installed alike. -/
theorem loadMeetsInvariant : Obligations.LoadMeetsInvariant := by
  rintro s t lines words fresh config (text | binary)
  · obtain ⟨p, _, installed⟩ := loadLines_ok text
    exact install_inv fresh config installed
  · obtain ⟨p, _, installed⟩ := loadWords_ok binary
    exact install_inv fresh config installed

/-! ### Names -/

theorem mem_programNames {n : Name} {is : List Instr} (h : .dec n ∈ is) : n ∈ programNames is := by
  induction is using programNames.induct with
  | case1 => cases h
  | case2 m is ih =>
    rw [programNames]
    rcases List.mem_cons.1 h with same | later
    · cases same
      exact List.mem_cons_self
    · exact List.mem_cons_of_mem _ (ih later)
  | case3 i is notDec ih =>
    rw [programNames.eq_3 _ _ notDec]
    rcases List.mem_cons.1 h with rfl | later
    · exact absurd rfl (notDec n)
    · exact ih later

theorem programNames_length_le (is : List Instr) : (programNames is).length ≤ is.length := by
  induction is using programNames.induct with
  | case1 => exact Nat.le_refl 0
  | case2 m is ih => simpa [programNames] using ih
  | case3 i is notDec ih =>
    rw [programNames.eq_3 _ _ notDec, List.length_cons]
    omega

theorem mem_programNames_of_fetch {s : State} {n : Name} (present : fetch s = some (.dec n)) :
    n ∈ programNames s.program :=
  mem_programNames (List.mem_of_getElem? present)

/-- Settles O50: the one name that a step can add is that of the DEC it has fetched. -/
theorem stepKeepsNamesFromProgram : Obligations.StepKeepsNamesFromProgram := by
  intro s t names h n declared
  obtain ⟨program, _⟩ := step_program_cfg h
  rw [program]
  rcases symbolTableOnlyGrows s t h with ⟨symtab, _⟩ | ⟨m, present, _, symtab, _⟩
  · rw [declaredNames, symtab] at declared
    exact names n declared
  · rw [declaredNames, symtab, List.map_append] at declared
    rcases List.mem_append.1 declared with old | new
    · exact names n old
    · rw [List.map_cons, List.map_nil, List.mem_singleton] at new
      exact new ▸ mem_programNames_of_fetch present

/-! ### Which effect raises what -/

/-- When the effect of an instruction raises a kind (R201 to R204). -/
inductive RaiseShape (s : State) : Instr → FaultKind → Prop where
  | duplicate (n : Name) (declared : n ∈ declaredNames s) : RaiseShape s (.dec n) .duplicateVariable
  | noRoom (n : Name) (fresh : n ∉ declaredNames s) (full : s.cfg.dataSize ≤ s.nalloc) :
      RaiseShape s (.dec n) .outOfDataMemory
  | loadAddress (a : Int) (invalid : ¬ AddressOk s.cfg a) : RaiseShape s (.lda a) .invalidAddress
  | loadLine (a : Int) (p : Payload) (ok : AddressOk s.cfg a) (cell : s.mem.read a.toNat = .line p) :
      RaiseShape s (.lda a) .valueOutOfRange
  | loadNumber (a v : Int) (cell : s.mem.read a.toNat = .num v) (illegal : ¬ ValueOk s.cfg v) :
      RaiseShape s (.lda a) .valueOutOfRange
  | immediateValue (v : Int) (illegal : ¬ ValueOk s.cfg v) : RaiseShape s (.ldi v) .valueOutOfRange
  | storeValue (a : Int) (illegal : ¬ ValueOk s.cfg s.acc) : RaiseShape s (.str a) .valueOutOfRange
  | storeAddress (a : Int) (invalid : ¬ AddressOk s.cfg a) : RaiseShape s (.str a) .invalidAddress
  | jumpSlot (a : Int) (illegal : ¬ PcOk s.cfg a) : RaiseShape s (.jmp a) .valueOutOfRange
  | jumpTakenSlot (a : Int) (zero : s.zf = true) (illegal : ¬ PcOk s.cfg a) : RaiseShape s (.jzs a) .valueOutOfRange

theorem eq_of_raise_eq {j k : FaultKind} {s : State} (h : raise j s = raise k s) : j = k :=
  Engine.faulted.inj (congrArg State.engine h)

/-- A state whose ENGINE is that of a running machine is not the state after a raise. -/
theorem ne_raise {s t : State} {k : FaultKind} (running : s.engine = .running) (same : t.engine = s.engine) :
    t ≠ raise k s := by
  rintro rfl
  simp [running] at same

theorem regSet_eq_raise {s : State} {r : RegValue} {k : FaultKind} (running : s.engine = .running)
    (h : regSet r s = raise k s) : regLegal s.cfg r = false ∧ k = .valueOutOfRange := by
  rcases regSet_cases r s with ⟨_, legal⟩ | ⟨illegal, raised⟩
  · exact absurd (legal.symm.trans h) (ne_raise running (regPut_engine r s))
  · exact ⟨illegal, (eq_of_raise_eq (raised.symm.trans h)).symm⟩

theorem accumulate_engine (r : Int) (s : State) : (accumulate r s).engine = s.engine := by
  unfold accumulate
  split_ifs <;> rfl

/-- The converse reading of `exec_shape`'s second case: what has made an effect raise. -/
theorem raiseShape_of_exec {s : State} {i : Instr} {k : FaultKind} (running : s.engine = .running)
    (h : exec i s = .next (raise k s)) : RaiseShape s i k := by
  cases i with
  | dec n =>
    rcases allocate_cases n s with ⟨declared, e⟩ | ⟨fresh, full, e⟩ | ⟨_, _, e⟩ <;>
      simp only [exec, execDec, e, Host.Outcome.next.injEq] at h
    · exact eq_of_raise_eq h ▸ .duplicate n declared
    · exact eq_of_raise_eq h ▸ .noRoom n fresh full
    · exact absurd h (ne_raise running rfl)
  | lda a =>
    by_cases ok : AddressOk s.cfg a
    · cases cell : s.mem.read a.toNat with
      | num v =>
        simp only [exec, execLda, effectiveAddress_eq, memRead_of_ok ok, cell, Host.Outcome.next.injEq] at h
        obtain ⟨illegal, rfl⟩ := regSet_eq_raise running h
        exact .loadNumber a v cell (of_decide_eq_false illegal)
      | line p =>
        simp only [exec, execLda, effectiveAddress_eq, memRead_of_ok ok, cell, Host.Outcome.next.injEq] at h
        exact eq_of_raise_eq h ▸ .loadLine a p ok cell
    · simp only [exec, execLda, effectiveAddress_eq, memRead_of_invalid ok, Host.Outcome.next.injEq] at h
      exact eq_of_raise_eq h ▸ .loadAddress a ok
  | ldi v =>
    obtain ⟨illegal, rfl⟩ := regSet_eq_raise running (Host.Outcome.next.inj h)
    exact .immediateValue v (of_decide_eq_false illegal)
  | str a =>
    have write : memWrite a s.acc s = raise k s := Host.Outcome.next.inj h
    rcases memWrite_cases a s.acc s with ⟨illegal, e⟩ | ⟨_, invalid, e⟩ | ⟨_, _, e⟩ <;> rw [e] at write
    · exact eq_of_raise_eq write ▸ .storeValue a illegal
    · exact eq_of_raise_eq write ▸ .storeAddress a invalid
    · exact absurd write (ne_raise running rfl)
  | xch | hlt => exact absurd (Host.Outcome.next.inj h) (ne_raise running rfl)
  | add | sub => exact absurd (Host.Outcome.next.inj h) (ne_raise running (accumulate_engine _ s))
  | jmp a =>
    obtain ⟨illegal, rfl⟩ := regSet_eq_raise running (Host.Outcome.next.inj h)
    exact .jumpSlot a (of_decide_eq_false illegal)
  | jzs a =>
    cases zf : s.zf with
    | true =>
      rw [exec_jzs_of_zero a zf] at h
      obtain ⟨illegal, rfl⟩ := regSet_eq_raise running (Host.Outcome.next.inj h)
      exact .jumpTakenSlot a zf (of_decide_eq_false illegal)
    | false =>
      rw [exec_jzs_of_nonzero a zf] at h
      exact absurd (Host.Outcome.next.inj h) (ne_raise running rfl)

/-- From a running machine an effect ends faulted only by a raise. -/
theorem exec_faulted {s t : State} {i : Instr} {k : FaultKind} (running : s.engine = .running)
    (h : exec i s = .next t) (fault : t.engine = .faulted k) : t = raise k s ∧ RaiseShape s i k := by
  rcases exec_next_cases h with shape | ⟨j, rfl⟩
  · obtain ⟨engine, _, _, _⟩ := shape.fixed
    simp [engine, running] at fault
  · obtain rfl : j = k := Engine.faulted.inj fault
    exact ⟨rfl, raiseShape_of_exec running h⟩

/-- Settles O43: the rows of the table are the shapes of a raise, less two that the invariant excludes: ACC and every
number in a cell are in range. -/
theorem effectsRaiseByTheFaultTable : Obligations.EffectsRaiseByTheFaultTable := by
  intro s t i k inv running h fault
  obtain ⟨rfl, raised⟩ := exec_faulted running h fault
  refine ⟨rfl, ?_⟩
  cases raised with
  | duplicate n declared => exact .inl ⟨rfl, n, rfl, declared⟩
  | noRoom n fresh full =>
    obtain ⟨_, _, fits⟩ := inv.symbols
    exact .inr (.inl ⟨rfl, n, rfl, fresh, Nat.le_antisymm fits full⟩)
  | loadAddress a invalid => exact .inr (.inr (.inl ⟨rfl, a, .inl rfl, by omega⟩))
  | storeAddress a invalid => exact .inr (.inr (.inl ⟨rfl, a, .inr rfl, by omega⟩))
  | loadNumber a v cell illegal => exact absurd (inv.valueOk_of_read cell) illegal
  | storeValue a illegal => exact absurd inv.registers.1 illegal
  | immediateValue v illegal => exact .inr (.inr (.inr ⟨rfl, .inl ⟨v, rfl, illegal⟩⟩))
  | loadLine a p ok cell => exact .inr (.inr (.inr ⟨rfl, .inr (.inl ⟨a, p, rfl, ok, cell⟩)⟩))
  | jumpSlot a illegal => exact .inr (.inr (.inr ⟨rfl, .inr (.inr (.inl ⟨a, rfl, illegal⟩))⟩))
  | jumpTakenSlot a zero illegal => exact .inr (.inr (.inr ⟨rfl, .inr (.inr (.inr ⟨a, rfl, zero, illegal⟩))⟩))

/-- A DEC of a fresh name finds room: the names declared and the fresh one are distinct names of the program, which
has no more instructions than the data range has cells (R121). -/
theorem room_of_fresh {s : State} {n : Name} (inv : Inv s) (names : NamesFromProgram s)
    (enough : s.cfg.progSize ≤ s.cfg.dataSize) (present : fetch s = some (.dec n)) (fresh : n ∉ declaredNames s) :
    s.nalloc < s.cfg.dataSize := by
  obtain ⟨distinct, addresses, _⟩ := inv.symbols
  have subset : n :: declaredNames s ⊆ programNames s.program :=
    List.cons_subset.2 ⟨mem_programNames_of_fetch present, names⟩
  have count : (n :: declaredNames s).length ≤ (programNames s.program).length :=
    (List.nodup_cons.2 ⟨fresh, distinct⟩).length_le_of_subset subset
  have entries : (declaredNames s).length = s.nalloc := by
    simpa [declaredNames] using congrArg List.length addresses
  rw [List.length_cons, entries] at count
  calc s.nalloc < (programNames s.program).length := count
    _ ≤ s.program.length := programNames_length_le _
    _ ≤ s.cfg.progSize := inv.program
    _ ≤ s.cfg.dataSize := enough

/-- Settles O51: only a DEC of a fresh name without room raises the kind, and there is room. -/
theorem outOfDataMemoryIsUnreachable : Obligations.OutOfDataMemoryIsUnreachable := by
  intro s t inv names enough h fault
  by_cases running : s.engine = .running
  · exfalso
    cases step_shape h with
    | terminal stopped => exact stopped running
    | missing | lastSlot => simp at fault
    | raised i k _ present _ effect =>
      obtain rfl : k = .outOfDataMemory := Engine.faulted.inj fault
      cases raiseShape_of_exec running effect with
      | noRoom n fresh full => exact absurd (room_of_fresh inv names enough present fresh) (Nat.not_lt.2 full)
    | completed i u _ _ _ shape =>
      obtain ⟨engine, _, _, _⟩ := shape.fixed
      obtain ⟨ends, _, _⟩ := endChecks_endEngine (i := i) (s := countCycle { u with pc := u.pc + 1 })
        (engine.trans running)
      rw [ends, endEngine] at fault
      split_ifs at fault
  · obtain rfl : s = t := Host.Outcome.next.inj ((step_of_terminal running).symm.trans h)
    exact fault

/-! ### Runs -/

theorem runCycles_of_terminal {s : State} (stopped : s.engine ≠ .running) (n : Nat) : runCycles n s = .next s := by
  cases n with
  | zero => rfl
  | succ n => simp [runCycles, stopped]

/-- One more cycle of the loop is one step, also where the machine has stopped (R166, R168). -/
theorem runCycles_succ {s t : State} (h : step s = .next t) (n : Nat) : runCycles (n + 1) s = runCycles n t := by
  by_cases running : s.engine = .running
  · simp [runCycles, running, h]
  · obtain rfl : s = t := Host.Outcome.next.inj ((step_of_terminal running).symm.trans h)
    rw [runCycles_of_terminal running, runCycles_of_terminal running]

/-- Enough cycles reach a terminal state: each one that leaves the machine running takes one from the cycles left. -/
theorem runCycles_terminates {n : Nat} {s : State} (ok : CyclesOk s) (enough : s.cfg.budget - s.cycles ≤ n) :
    ∃ t, runCycles n s = .next t ∧ t.engine ≠ .running ∧ t.cycles ≤ s.cfg.budget := by
  by_cases running : s.engine = .running
  · have cycleLeft : s.cycles ≠ s.cfg.budget := fun full => ok.2 full running
    induction n generalizing s with
    | zero => omega
    | succ n ih =>
      obtain ⟨t, h⟩ := everyStepAnswersANextState s
      have okT := step_cyclesOk ok h
      obtain ⟨_, cfg⟩ := step_program_cfg h
      rw [runCycles_succ h, ← cfg]
      by_cases runningT : t.engine = .running
      · obtain ⟨_, counts, _⟩ := cyclesCountCompletedCycles s t running h
        have counted : t.cycles = s.cycles + 1 := counts (by simp [runningT])
        exact ih okT (by rw [cfg, counted]; omega) runningT fun full => okT.2 full runningT
      · exact ⟨t, runCycles_of_terminal runningT n, runningT, okT.1⟩
  · exact ⟨s, runCycles_of_terminal running n, running, ok.1⟩

/-- Settles O52: `run` has BUDGET - CYCLES cycles, which is enough. -/
theorem runAlwaysTerminates : Obligations.RunAlwaysTerminates := fun _ ok => runCycles_terminates ok (Nat.le_refl _)

/-- Cycles after a terminal state change nothing. -/
theorem runCycles_add {n m : Nat} {s t : State} (h : runCycles n s = .next t) (stopped : t.engine ≠ .running) :
    runCycles (n + m) s = .next t := by
  induction n generalizing s with
  | zero =>
    obtain rfl : s = t := Host.Outcome.next.inj h
    exact runCycles_of_terminal stopped _
  | succ n ih =>
    obtain ⟨u, hu⟩ := everyStepAnswersANextState s
    rw [runCycles_succ hu] at h
    rw [Nat.succ_add, runCycles_succ hu]
    exact ih h

/-- N steps through the host's interface are N cycles of the loop (R169). -/
theorem coreRun_eq_runCycles (n : Nat) (s : State) : Host.Core.run core n s = runCycles n s := by
  induction n generalizing s with
  | zero => rfl
  | succ n ih =>
    obtain ⟨t, h⟩ := everyStepAnswersANextState s
    have stepped : Host.Core.run core (n + 1) s = Host.Core.run core n t := by simp [Host.Core.run, core, h]
    rw [stepped, ih t, runCycles_succ h]

/-- Settles O53: stepping is the loop, and the loop stays where `run` has ended. -/
theorem steppingAndRunningAgree : Obligations.SteppingAndRunningAgree := by
  refine ⟨coreRun_eq_runCycles, fun n s ok enough => ?_⟩
  obtain ⟨t, ends, stopped, _⟩ := runAlwaysTerminates s ok
  obtain ⟨m, rfl⟩ := Nat.exists_eq_add_of_le enough
  rw [coreRun_eq_runCycles, ends]
  exact runCycles_add ends stopped

end Sys2Proof.Machine
end

section
/-! PROOFS. What no run can tell: names up to renaming, the payloads of raw lines. And the hardware widths (10_state.md
rules R28, R39, 30_encoding.md rules R89, R93). -/

namespace Sys2Proof.Machine

/-! ### Maps that commute with a step -/

/-- A map `g` of machines that keeps the registers, the counters, ENGINE and the parameters, takes each name `n` to
`f n`, and commutes with every write of a cycle. -/
structure Simulates (f : Name → Name) (g : State → State) : Prop where
  acc_eq : ∀ s, (g s).acc = s.acc
  dr_eq : ∀ s, (g s).dr = s.dr
  pc_eq : ∀ s, (g s).pc = s.pc
  zf_eq : ∀ s, (g s).zf = s.zf
  nalloc_eq : ∀ s, (g s).nalloc = s.nalloc
  cycles_eq : ∀ s, (g s).cycles = s.cycles
  engine_eq : ∀ s, (g s).engine = s.engine
  cfg_eq : ∀ s, (g s).cfg = s.cfg
  program_eq : ∀ s, (g s).program = s.program.map (Instr.mapName f)
  declared_iff : ∀ n s, f n ∈ declaredNames (g s) ↔ n ∈ declaredNames s
  read_num : ∀ s a v, s.mem.read a = .num v → (g s).mem.read a = .num v
  read_line : ∀ s a p, s.mem.read a = .line p → ∃ q, (g s).mem.read a = .line q
  map_raise : ∀ k s, g (raise k s) = raise k (g s)
  map_regPut : ∀ r s, g (regPut r s) = regPut r (g s)
  map_cellPut : ∀ a v s, g (cellPut a (.num v) s) = cellPut a (.num v) (g s)
  map_declare : ∀ n a s, g (emit (.declared n a) (symbolPut n a s)) =
    emit (.declared (f n) a) (symbolPut (f n) a (g s))
  map_haltSignal : ∀ s, g (emit .haltSignal s) = emit .haltSignal (g s)
  map_countCycle : ∀ s, g (countCycle s) = countCycle (g s)
  map_halt : ∀ h s, g (halt h s) = halt h (g s)

namespace Simulates

variable {f : Name → Name} {g : State → State}

theorem map_regSet (sim : Simulates f g) (r : RegValue) (s : State) : g (regSet r s) = regSet r (g s) := by
  unfold regSet
  rw [sim.cfg_eq]
  split_ifs
  · exact sim.map_regPut r s
  · exact sim.map_raise _ s

theorem map_accumulate (sim : Simulates f g) (v : Int) (s : State) : g (accumulate v s) = accumulate v (g s) := by
  unfold accumulate
  rw [sim.cfg_eq]
  split_ifs
  · rw [sim.map_regPut, sim.map_regPut]
  · rfl

theorem map_memWrite (sim : Simulates f g) (a v : Int) (s : State) : g (memWrite a v s) = memWrite a v (g s) := by
  unfold memWrite
  rw [sim.cfg_eq]
  split_ifs
  · exact sim.map_cellPut _ v s
  · exact sim.map_raise _ s
  · exact sim.map_raise _ s

theorem map_endChecks (sim : Simulates f g) (i : Instr) (s : State) :
    g (endChecks i s) = endChecks (i.mapName f) (g s) := by
  have halts : i.mapName f = .hlt ↔ i = .hlt := by cases i <;> simp [Instr.mapName]
  simp only [endChecks, halts, sim.cycles_eq, sim.cfg_eq]
  split_ifs
  · exact sim.map_halt _ s
  · exact sim.map_halt _ s
  · rfl

theorem map_advance (sim : Simulates f g) (s : State) : g (advance s) = advance (g s) := by
  rw [advance, advance, sim.pc_eq, sim.map_regSet]

theorem map_finishCycle (sim : Simulates f g) (i : Instr) (s : State) :
    g (finishCycle i s) = finishCycle (i.mapName f) (g s) := by
  simp only [finishCycle, sim.engine_eq, ← sim.map_advance]
  cases s.engine with
  | running =>
    cases (advance s).engine with
    | running => exact (sim.map_endChecks i _).trans (by rw [sim.map_countCycle])
    | halted h | faulted k => rfl
  | halted h | faulted k => rfl

theorem fetch_map (sim : Simulates f g) (s : State) : fetch (g s) = (fetch s).map (Instr.mapName f) := by
  rw [fetch, fetch, sim.pc_eq, sim.program_eq, List.getElem?_map]

/-! #### The effects -/

theorem exec_dec (sim : Simulates f g) {s t : State} {n : Name} (h : exec (.dec n) s = .next t) :
    exec (.dec (f n)) (g s) = .next (g t) := by
  rcases allocate_cases n s with ⟨declared, e⟩ | ⟨fresh, full, e⟩ | ⟨fresh, room, e⟩ <;>
    simp only [exec, execDec, e, Host.Outcome.next.injEq] at h
  · have eG : allocate (f n) (g s) = .error .duplicateVariable := by simp [allocate, sim.declared_iff, declared]
    simp only [exec, execDec, eG]
    rw [← h, sim.map_raise]
  · have eG : allocate (f n) (g s) = .error .outOfDataMemory := by
      simp [allocate, sim.declared_iff, fresh, sim.cfg_eq, sim.nalloc_eq, full]
    simp only [exec, execDec, eG]
    rw [← h, sim.map_raise]
  · have eG : allocate (f n) (g s) =
        .ok (dataBase s.cfg + s.nalloc, symbolPut (f n) (dataBase s.cfg + s.nalloc) (g s)) := by
      simp [allocate, sim.declared_iff, fresh, sim.cfg_eq, sim.nalloc_eq, room]
    simp only [exec, execDec, eG]
    rw [← h, sim.map_declare]

theorem exec_lda (sim : Simulates f g) {s t : State} {a : Int} (h : exec (.lda a) s = .next t) :
    exec (.lda a) (g s) = .next (g t) := by
  by_cases ok : AddressOk s.cfg a
  · have okG : AddressOk (g s).cfg a := by rwa [sim.cfg_eq]
    cases cell : s.mem.read a.toNat with
    | num v =>
      simp only [exec, execLda, effectiveAddress_eq, memRead_of_ok ok, memRead_of_ok okG, cell,
        sim.read_num s _ v cell, Host.Outcome.next.injEq] at h ⊢
      rw [← h, sim.map_regSet]
    | line p =>
      obtain ⟨q, cellG⟩ := sim.read_line s _ p cell
      simp only [exec, execLda, effectiveAddress_eq, memRead_of_ok ok, memRead_of_ok okG, cell, cellG,
        Host.Outcome.next.injEq] at h ⊢
      rw [← h, sim.map_raise]
  · have invalidG : ¬ AddressOk (g s).cfg a := by rwa [sim.cfg_eq]
    simp only [exec, execLda, effectiveAddress_eq, memRead_of_invalid ok, memRead_of_invalid invalidG,
      Host.Outcome.next.injEq] at h ⊢
    rw [← h, sim.map_raise]

theorem exec_jzs (sim : Simulates f g) {s t : State} {a : Int} (h : exec (.jzs a) s = .next t) :
    exec (.jzs a) (g s) = .next (g t) := by
  cases zf : s.zf with
  | true =>
    rw [exec_jzs_of_zero a zf] at h
    rw [exec_jzs_of_zero a ((sim.zf_eq s).trans zf), ← sim.map_regSet, Host.Outcome.next.inj h]
  | false =>
    rw [exec_jzs_of_nonzero a zf] at h
    rw [exec_jzs_of_nonzero a ((sim.zf_eq s).trans zf), Host.Outcome.next.inj h]

/-- Each effect commutes with the map: its checks see what they saw, and its writes commute. -/
theorem exec_map (sim : Simulates f g) {s t : State} {i : Instr} (h : exec i s = .next t) :
    exec (i.mapName f) (g s) = .next (g t) := by
  cases i with
  | dec n => exact sim.exec_dec h
  | lda a => exact sim.exec_lda h
  | jzs a => exact sim.exec_jzs h
  | ldi v | jmp v =>
    obtain rfl := Host.Outcome.next.inj h
    exact congrArg Host.Outcome.next (sim.map_regSet _ s).symm
  | str a =>
    obtain rfl := Host.Outcome.next.inj h
    rw [effectiveAddress_eq, sim.map_memWrite, ← sim.acc_eq]
    rfl
  | xch =>
    obtain rfl := Host.Outcome.next.inj h
    rw [sim.map_regPut, sim.map_regPut, ← sim.acc_eq, ← sim.dr_eq]
    rfl
  | add | sub =>
    obtain rfl := Host.Outcome.next.inj h
    rw [sim.map_accumulate, ← sim.acc_eq, ← sim.dr_eq]
    rfl
  | hlt =>
    obtain rfl := Host.Outcome.next.inj h
    exact congrArg Host.Outcome.next (sim.map_haltSignal s).symm

/-- The map commutes with a step: fetch, effect and the end of the cycle do. -/
theorem step_map (sim : Simulates f g) {s t : State} (h : step s = .next t) : step (g s) = .next (g t) := by
  by_cases running : s.engine = .running
  · have runningG : (g s).engine = .running := (sim.engine_eq s).trans running
    cases present : fetch s with
    | none =>
      obtain rfl := Host.Outcome.next.inj ((step_of_fetch_none running present).symm.trans h)
      rw [sim.map_raise]
      exact step_of_fetch_none runningG (by rw [sim.fetch_map, present]; rfl)
    | some i =>
      obtain ⟨u, effect⟩ : ∃ u, exec i s = .next u := by
        rcases exec_shape i s with ⟨u, effect, _⟩ | ⟨k, _, effect⟩ <;> exact ⟨_, effect⟩
      obtain rfl := Host.Outcome.next.inj ((step_of_exec running present effect).symm.trans h)
      rw [sim.map_finishCycle]
      exact step_of_exec runningG (by rw [sim.fetch_map, present]; rfl) (sim.exec_map effect)
  · obtain rfl := Host.Outcome.next.inj ((step_of_terminal running).symm.trans h)
    exact step_of_terminal (by rwa [sim.engine_eq])

end Simulates

/-! ### Renaming -/

theorem declaredNames_renameState (f : Name → Name) (s : State) :
    declaredNames (renameState f s) = (declaredNames s).map f := by
  simp [declaredNames, renameState, Function.comp_def]

theorem simulates_renameState {f : Name → Name} (inj : Function.Injective f) : Simulates f (renameState f) where
  acc_eq _ := rfl
  dr_eq _ := rfl
  pc_eq _ := rfl
  zf_eq _ := rfl
  nalloc_eq _ := rfl
  cycles_eq _ := rfl
  engine_eq _ := rfl
  cfg_eq _ := rfl
  program_eq _ := rfl
  declared_iff n s := by rw [declaredNames_renameState, List.mem_map_of_injective inj]
  read_num _ _ _ cell := cell
  read_line _ _ p cell := ⟨p, cell⟩
  map_raise _ _ := rfl
  map_regPut r _ := by cases r <;> rfl
  map_cellPut _ _ _ := rfl
  map_declare n a s := by simp [renameState, emit, symbolPut, renameEvent]
  map_haltSignal s := by simp [renameState, emit, renameEvent]
  map_countCycle _ := rfl
  map_halt _ _ := rfl

/-- Settles O54: the one check on names is whether a name is declared, which an injective map keeps. -/
theorem renamingCommutesWithStep : Obligations.RenamingCommutesWithStep :=
  fun _ inj _ _ h => (simulates_renameState inj).step_map h

/-! ### Erasure -/

/-- The cells of memory with their payloads erased. -/
def eraseMemory (m : Memory) : Memory := m.map fun e => (e.1, eraseCell e.2)

/-- `eraseMemory` is what `eraseLines` does. -/
theorem eraseLines_eq (s : State) : eraseLines s = { s with mem := eraseMemory s.mem } := rfl

theorem read_eraseMemory (m : Memory) (a : Nat) : (eraseMemory m).read a = eraseCell (m.read a) := by
  induction m with
  | nil => rfl
  | cons e m ih =>
    rw [eraseMemory, List.map_cons, Memory.read, Memory.read, apply_ite eraseCell, ← ih, eraseMemory]

theorem eraseCell_num (v : Int) : eraseCell (.num v) = .num v := rfl

/-- A number is its own erasure, so it is written to the same place of either memory. -/
theorem eraseMemory_write (m : Memory) (a : Nat) (v : Int) :
    eraseMemory (m.write a (.num v)) = (eraseMemory m).write a (.num v) := by
  induction m with
  | nil =>
    simp only [eraseMemory, List.map_nil, Memory.write]
    split_ifs <;> rfl
  | cons e m ih =>
    simp only [eraseMemory, List.map_cons, Memory.write] at ih ⊢
    split_ifs <;> simp [ih, eraseCell_num]

theorem mapName_id (i : Instr) : i.mapName id = i := by cases i <;> rfl

theorem simulates_eraseLines : Simulates id eraseLines where
  acc_eq _ := rfl
  dr_eq _ := rfl
  pc_eq _ := rfl
  zf_eq _ := rfl
  nalloc_eq _ := rfl
  cycles_eq _ := rfl
  engine_eq _ := rfl
  cfg_eq _ := rfl
  program_eq s := by rw [funext mapName_id, List.map_id']; rfl
  declared_iff _ _ := Iff.rfl
  read_num s a v cell := by rw [eraseLines_eq, read_eraseMemory, cell, eraseCell]
  read_line s a p cell := ⟨_, by rw [eraseLines_eq, read_eraseMemory, cell, eraseCell]⟩
  map_raise _ _ := rfl
  map_regPut r _ := by cases r <;> rfl
  map_cellPut a v s := by rw [eraseLines_eq, eraseLines_eq, cellPut, cellPut, eraseMemory_write]
  map_declare _ _ _ := rfl
  map_haltSignal _ := rfl
  map_countCycle _ := rfl
  map_halt _ _ := rfl

/-- Settles O55: LDA alone reads a cell, and it raises on every line alike. -/
theorem linePayloadsAreNeverRead : Obligations.LinePayloadsAreNeverRead := fun _ _ h => simulates_eraseLines.step_map h

/-! ### Widths -/

/-- A sign bit and `k` more read a number back exactly in two's complement range. -/
theorem toInt_ofInt_succ_eq_iff (k : Nat) (v : Int) :
    (BitVec.ofInt (k + 1) v).toInt = v ↔ -(2 : Int) ^ k ≤ v ∧ v < 2 ^ k := by
  constructor
  · intro same
    rw [← same]
    exact ⟨BitVec.le_toInt _, BitVec.toInt_lt⟩
  · rintro ⟨low, high⟩
    exact BitVec.toInt_ofInt_eq_self (Nat.succ_pos k) low high

/-- A signed width holds a range around 0 exactly if it is no smaller than `signedBits` (R39). -/
theorem signedBits_le_iff {lo hi : Int} (low : lo ≤ 0) (high : 0 ≤ hi) (n : Nat) :
    signedBits lo hi ≤ n ↔ ∀ v, lo ≤ v ∧ v ≤ hi → (BitVec.ofInt n v).toInt = v := by
  unfold signedBits
  split_ifs with zero
  · obtain ⟨rfl, rfl⟩ := zero
    refine iff_of_true (Nat.zero_le n) fun v range => ?_
    obtain rfl : v = 0 := by omega
    simp
  · cases n with
    | zero =>
      refine iff_of_false (Nat.not_succ_le_zero _) fun reads => zero ?_
      have hlo := reads lo ⟨le_rfl, by omega⟩
      have hhi := reads hi ⟨by omega, le_rfl⟩
      simp only [BitVec.toInt_zero_length] at hlo hhi
      exact ⟨hlo.symm, hhi.symm⟩
    | succ k =>
      rw [Nat.succ_le_succ_iff, Nat.max_le, magnitudeBits_le_iff, magnitudeBits_le_iff]
      simp only [toInt_ofInt_succ_eq_iff]
      refine ⟨fun ⟨⟨lowest, _⟩, _, highest⟩ v range => ⟨by omega, by omega⟩, fun holds => ?_⟩
      exact ⟨holds lo ⟨le_rfl, by omega⟩, holds hi ⟨by omega, le_rfl⟩⟩

/-- An unsigned width holds `0 .. hi` exactly if it is no smaller than `unsignedBits` (R39). -/
theorem unsignedBits_le_iff_holds (hi n : Nat) :
    unsignedBits hi ≤ n ↔ ∀ k, k ≤ hi → (BitVec.ofNat n k).toNat = k := by
  rw [unsignedBits_le_iff]
  simp only [BitVec.toNat_ofNat, Nat.mod_eq_iff_lt (Nat.two_pow_pos n).ne']
  exact ⟨fun top k below => Nat.lt_of_le_of_lt below top, fun holds => holds hi le_rfl⟩

/-- The range of PC of a machine whose PC_MIN is 0. -/
theorem pcOk_iff_le {c : Config} (config : ConfigOk c) (p : Nat) : PcOk c p ↔ p ≤ c.progSize - 1 := by
  obtain ⟨pcMin, slots, _⟩ := config
  unfold PcOk pcMax
  omega

/-- Settles O57: each width is that of `signedBits` or `unsignedBits` for its range. -/
theorem hardwareWidthsAreLeast : Obligations.HardwareWidthsAreLeast := by
  refine ⟨by decide, fun c n config => ?_⟩
  have ⟨_, _, low, high, _⟩ := config
  simp only [pcOk_iff_le config]
  exact ⟨(signedBits_le_iff low high n).symm, (unsignedBits_le_iff_holds _ n).symm,
    (unsignedBits_le_iff_holds _ n).symm, (unsignedBits_le_iff_holds _ n).symm⟩

/-- Settles O56: a machine that meets the invariant has every value in its range, and the width of a range holds it. -/
theorem hardwareWidthsLoseNothing : Obligations.HardwareWidthsLoseNothing := by
  intro s inv
  obtain ⟨accOk, drOk, pcOk⟩ := inv.registers
  obtain ⟨_, _, allocations⟩ := inv.symbols
  obtain ⟨cycles, _⟩ := inv.cycles
  have ⟨_, _, low, high, _⟩ := inv.config
  have value : ∀ v, ValueOk s.cfg v → (BitVec.ofInt (valueBits s.cfg) v).toInt = v :=
    (signedBits_le_iff low high _).1 le_rfl
  have unsigned {hi k : Nat} (range : k ≤ hi) : (BitVec.ofNat (unsignedBits hi) k).toNat = k :=
    (unsignedBits_le_iff_holds hi _).1 le_rfl k range
  refine ⟨value _ accOk, value _ drOk, unsigned ((pcOk_iff_le inv.config _).1 pcOk), rfl, unsigned allocations,
    unsigned cycles, fun a v cell => ?_⟩
  rw [cell]
  exact value v (inv.valueOk_of_read cell)

end Sys2Proof.Machine
end
